-- ==== Sys2Proof/Config.lean ====
section
/-!
DEFINITION. The implementation parameters of spec/00_scope.md R6 and the constants of the encoding
(spec/30_encoding.md R61, R62, R67). The spec leaves no parameter open and no value free
(spec/93_implementation_defined.md: "No item is modelled as `any value`"), so nothing here is opaque (log 8). Memory,
pointer and channel have no ceiling (log 9).
-/
namespace Sys2Proof

/-- The least member of `i64` (R7). -/
def Config.minValue : Int := -2 ^ 63

/-- The greatest member of `i64` (R7). -/
def Config.maxValue : Int := 2 ^ 63 - 1

/-- The least word with a digit above the three mode digits (R62, R67). -/
def Config.wordBound : Nat := 100000

/-- The address of the first fetch and of the image's first integer (spec/20_memory.md R51). -/
def Config.resetVector : Nat := 0

end Sys2Proof
end

