-- ==== Sys2Proof/Word.lean ====
section
/-!
DEFINITION. The value of one memory cell.
-/
namespace Sys2Proof

/-- One signed 64-bit cell (spec/00_scope.md R6, R8): `CELL_WIDTH` and `RB_WIDTH` are 64. The number it stands for is `BitVec.toInt`, its two's
complement reading (spec/92_eei_decisions.md D2). -/
abbrev Word := BitVec 64

end Sys2Proof
end

