-- ==== Sys2Proof/Syntax.lean ====
section
/-!
DEFINITION. The instruction set of spec/30_encoding.md as data: addressing modes, the ten opcodes, the ten
instructions, and the decoder's named rejections. Only the instruction word is decoded (R70), so an instruction
is its opcode and its three mode digits; parameter words are read from memory when it executes.
-/
namespace Sys2Proof

/-- The three parameter modes (spec/30_encoding.md R62, spec/20_memory.md R45). -/
inductive Mode where
  /-- Mode digit 0: the parameter word is an address. -/
  | position
  /-- Mode digit 1: the parameter word is the value; read-only. -/
  | immediate
  /-- Mode digit 2: the parameter word plus the relative base is an address. -/
  | relative
deriving DecidableEq, Repr

/-- The ten operations of the fixed opcode table (spec/30_encoding.md R61, R63). -/
inductive Opcode where
  | add
  | multiply
  | input
  | output
  | jumpIfTrue
  | jumpIfFalse
  | lessThan
  | equals
  | setRelativeBase
  | halt
deriving DecidableEq, Repr

/-- One constructor per row of spec/opcode_table.json. Each carries the mode digits of parameters 1, 2 and 3, in
that order. A digit whose parameter the opcode lacks is kept and never used (R68). -/
inductive Instr where
  /-- R81. Reads p1 and p2, writes p3. -/
  | add (m1 m2 m3 : Mode)
  /-- R82. Reads p1 and p2, writes p3. -/
  | multiply (m1 m2 m3 : Mode)
  /-- R90. Writes p1. -/
  | input (m1 m2 m3 : Mode)
  /-- R91. Reads p1. -/
  | output (m1 m2 m3 : Mode)
  /-- R100. Reads p1 (the condition) and p2 (the target). -/
  | jumpIfTrue (m1 m2 m3 : Mode)
  /-- R101. Reads p1 (the condition) and p2 (the target). -/
  | jumpIfFalse (m1 m2 m3 : Mode)
  /-- R83. Reads p1 and p2, writes p3. -/
  | lessThan (m1 m2 m3 : Mode)
  /-- R84. Reads p1 and p2, writes p3. -/
  | equals (m1 m2 m3 : Mode)
  /-- R102. Reads p1. -/
  | setRelativeBase (m1 m2 m3 : Mode)
  /-- R103. No parameters. -/
  | halt (m1 m2 m3 : Mode)
deriving DecidableEq, Repr

/-- Why the decoder rejects an instruction word (spec/30_encoding.md R65). The engine turns each into the
instruction fault of the same name. -/
inductive DecodeReject where
  /-- The word is negative (R66). -/
  | negativeInstructionWord
  /-- The last two decimal digits are no opcode (R61). -/
  | invalidOpcode
  /-- There is a nonzero digit above the ten-thousands place (R67). -/
  | excessModeDigits
  /-- The mode digit of parameter `i` is not 0, 1 or 2 (R62, R68). -/
  | invalidParameterMode (i : Nat)
  /-- The write parameter `i` is in Immediate mode (R69). -/
  | immediateWrite (i : Nat)
deriving DecidableEq, Repr

end Sys2Proof
end

