-- ==== Sys2Proof/WellFormed.lean ====
section
/-!
DEFINITION. Which terms of `Instr` the encoding has: a write parameter is never in Immediate mode
(spec/30_encoding.md R69). Every other combination of mode digits is legal (R71).
-/
namespace Sys2Proof

/-- The operation an instruction performs. -/
def Instr.opcode : Instr → Opcode
  | .add _ _ _ => .add
  | .multiply _ _ _ => .multiply
  | .input _ _ _ => .input
  | .output _ _ _ => .output
  | .jumpIfTrue _ _ _ => .jumpIfTrue
  | .jumpIfFalse _ _ _ => .jumpIfFalse
  | .lessThan _ _ _ => .lessThan
  | .equals _ _ _ => .equals
  | .setRelativeBase _ _ _ => .setRelativeBase
  | .halt _ _ _ => .halt

/-- The mode of the parameter an instruction writes through, if it has one (R64: parameter 3 of the four ALU
instructions, parameter 1 of Input). -/
def Instr.writeMode : Instr → Option Mode
  | .add _ _ m3 => some m3
  | .multiply _ _ m3 => some m3
  | .input m1 _ _ => some m1
  | .output _ _ _ => none
  | .jumpIfTrue _ _ _ => none
  | .jumpIfFalse _ _ _ => none
  | .lessThan _ _ m3 => some m3
  | .equals _ _ m3 => some m3
  | .setRelativeBase _ _ _ => none
  | .halt _ _ _ => none

/-- R69: the write parameter, where there is one, is not in Immediate mode. -/
def Instr.wf (i : Instr) : Bool := decide (i.writeMode ≠ some .immediate)

end Sys2Proof
end

