-- ==== Sys2Proof/Decode.lean ====
section
/-!
DEFINITION. The decoder of spec/30_encoding.md, total on every cell, and the encoder written from the same tables.
-/
namespace Sys2Proof

/-- The k-th decimal digit of `w`, units first (spec/00_scope.md R7). -/
def decimalDigit (k w : Nat) : Nat := w / 10 ^ k % 10

/-- The opcode field: the last two decimal digits (R61). -/
def opcodeField (w : Nat) : Nat := w % 100

/-- The opcode domain of R61. -/
def opcodeOfNumber : Nat → Option Opcode
  | 1 => some .add
  | 2 => some .multiply
  | 3 => some .input
  | 4 => some .output
  | 5 => some .jumpIfTrue
  | 6 => some .jumpIfFalse
  | 7 => some .lessThan
  | 8 => some .equals
  | 9 => some .setRelativeBase
  | 99 => some .halt
  | _ => none

/-- The number of an opcode (R61, R63). -/
def opcodeNumber : Opcode → Nat
  | .add => 1
  | .multiply => 2
  | .input => 3
  | .output => 4
  | .jumpIfTrue => 5
  | .jumpIfFalse => 6
  | .lessThan => 7
  | .equals => 8
  | .setRelativeBase => 9
  | .halt => 99

/-- The number of parameters of an opcode (R63). -/
def paramCount : Opcode → Nat
  | .add => 3
  | .multiply => 3
  | .input => 1
  | .output => 1
  | .jumpIfTrue => 2
  | .jumpIfFalse => 2
  | .lessThan => 3
  | .equals => 3
  | .setRelativeBase => 1
  | .halt => 0

/-- The length of an instruction in cells, which the opcode alone fixes (R63, R72). -/
def instrLength (op : Opcode) : Nat := 1 + paramCount op

/-- The position of the parameter an opcode writes through (R64). -/
def writeParam : Opcode → Option Nat
  | .add => some 3
  | .multiply => some 3
  | .input => some 1
  | .output => none
  | .jumpIfTrue => none
  | .jumpIfFalse => none
  | .lessThan => some 3
  | .equals => some 3
  | .setRelativeBase => none
  | .halt => none

/-- The mode domain of R62. -/
def modeOfDigit : Nat → Option Mode
  | 0 => some .position
  | 1 => some .immediate
  | 2 => some .relative
  | _ => none

/-- The digit of a mode (R62). -/
def modeDigit : Mode → Nat
  | .position => 0
  | .immediate => 1
  | .relative => 2

/-- The instruction with a given opcode and mode digits. -/
def instrOf (op : Opcode) (m1 m2 m3 : Mode) : Instr :=
  match op with
  | .add => .add m1 m2 m3
  | .multiply => .multiply m1 m2 m3
  | .input => .input m1 m2 m3
  | .output => .output m1 m2 m3
  | .jumpIfTrue => .jumpIfTrue m1 m2 m3
  | .jumpIfFalse => .jumpIfFalse m1 m2 m3
  | .lessThan => .lessThan m1 m2 m3
  | .equals => .equals m1 m2 m3
  | .setRelativeBase => .setRelativeBase m1 m2 m3
  | .halt => .halt m1 m2 m3

/-- The mode digits of an instruction, in parameter order. -/
def instrModes : Instr → Mode × Mode × Mode
  | .add m1 m2 m3 => (m1, m2, m3)
  | .multiply m1 m2 m3 => (m1, m2, m3)
  | .input m1 m2 m3 => (m1, m2, m3)
  | .output m1 m2 m3 => (m1, m2, m3)
  | .jumpIfTrue m1 m2 m3 => (m1, m2, m3)
  | .jumpIfFalse m1 m2 m3 => (m1, m2, m3)
  | .lessThan m1 m2 m3 => (m1, m2, m3)
  | .equals m1 m2 m3 => (m1, m2, m3)
  | .setRelativeBase m1 m2 m3 => (m1, m2, m3)
  | .halt m1 m2 m3 => (m1, m2, m3)

/-- The three mode digits of a word that has no digit above them, checked for parameters 1, 2 and 3 in turn
(R62, R68: all three are checked, whatever the opcode's parameter count). -/
def decodeModes (w : Nat) : Except DecodeReject (Mode × Mode × Mode) :=
  match modeOfDigit (decimalDigit 2 w) with
  | none => .error (.invalidParameterMode 1)
  | some m1 =>
    match modeOfDigit (decimalDigit 3 w) with
    | none => .error (.invalidParameterMode 2)
    | some m2 =>
      match modeOfDigit (decimalDigit 4 w) with
      | none => .error (.invalidParameterMode 3)
      | some m3 => .ok (m1, m2, m3)

/-- The mode among three that belongs to parameter `i`. -/
def modeOfParam (i : Nat) (m : Mode × Mode × Mode) : Mode :=
  match i with
  | 1 => m.1
  | 2 => m.2.1
  | _ => m.2.2

/-- The decode function of R65, with its order of checks. It reads the instruction word only: neither the
pointer nor the relative base plays a part (R72). -/
def decode (w : Word) : Except DecodeReject Instr :=
  if w.toInt < 0 then .error .negativeInstructionWord
  else
    match opcodeOfNumber (opcodeField w.toInt.toNat) with
    | none => .error .invalidOpcode
    | some op =>
      if Config.wordBound ≤ w.toInt.toNat then .error .excessModeDigits
      else
        match decodeModes w.toInt.toNat with
        | .error r => .error r
        | .ok (m1, m2, m3) =>
          match writeParam op with
          | none => .ok (instrOf op m1 m2 m3)
          | some i =>
            if modeOfParam i (m1, m2, m3) = .immediate then .error (.immediateWrite i)
            else .ok (instrOf op m1 m2 m3)

/-- The number `op + 100*m1 + 1000*m2 + 10000*m3` of R73. -/
def encodeNumber (i : Instr) : Nat :=
  opcodeNumber i.opcode + 100 * modeDigit (instrModes i).1 + 1000 * modeDigit (instrModes i).2.1
    + 10000 * modeDigit (instrModes i).2.2

/-- The instruction word of an instruction. Its parameter words are literals of the program and no part of it. -/
def encode (i : Instr) : Word := BitVec.ofNat 64 (encodeNumber i)

/-- Cell `k` of an instruction whose bits are `w`, bit 0 being the least significant bit of the first cell. Bits at
or above `nbits` are zero. -/
def tableCell (nbits w k : Nat) : Word :=
  BitVec.ofNat 64 (w % 2 ^ nbits / 2 ^ (64 * k))

/-- What the decoder reads from an instruction whose bits are `w`: its first cell is the instruction word. -/
def decodeTableWord (nbits w : Nat) : Option Instr :=
  match decode (tableCell nbits w 0) with
  | .ok i => some i
  | .error _ => none

end Sys2Proof
end

