-- ==== Sys2Proof/Machine/State.lean ====
section
/-!
DEFINITION. The state of one VM instance (spec/10_state.md R20 to R28), the fault and error kinds of
spec/60_exceptions.md R130, why a step can stop, and the state after reset.
-/
namespace Sys2Proof.Machine

/-- One listed memory cell: its address and its value. The hardware's smallest addressable unit is the 64-bit cell
(spec/20_memory.md R49), so a pair holds a cell, not a byte (log 1). -/
abbrev MemCell := Nat × Word

/-- The Memory tape: the listed cells, addresses strictly rising, no listed cell 0. An unlisted address reads as 0
(spec/10_state.md R22). -/
abbrev Memory := List MemCell

/-- The execution State `st` (spec/10_state.md R26): exactly five values. -/
inductive ExecState where
  /-- Loaded or cloned, never run. -/
  | initialized
  /-- The engine is executing steps. -/
  | running
  /-- An `Output` completed; non-terminal. -/
  | paused
  /-- An `Input` found the channel empty; non-terminal. -/
  | pausedWaitingForInput
  /-- `Halt` executed; terminal. -/
  | stopped
deriving DecidableEq, Repr

/-- The instruction faults of spec/60_exceptions.md R130 and R131 with the information each records. A step that
raises one commits nothing else (R132). `ptr` is the faulting instruction's address. A step that raises one answers a
next state (log 2). -/
inductive InstrFault where
  /-- Code 1, raised by the decoder: the last two digits of `w` are no opcode. -/
  | invalidOpcode (ptr : Nat) (w : Word)
  /-- Code 2, raised by the decoder: mode digit `i` of `w` is not 0, 1 or 2. -/
  | invalidParameterMode (ptr : Nat) (w : Word) (i : Nat)
  /-- Code 4, raised by the decoder: `w` is negative. -/
  | negativeInstructionWord (ptr : Nat) (w : Word)
  /-- Code 5, raised by the decoder: `w` has a nonzero digit above the mode digits. -/
  | excessModeDigits (ptr : Nat) (w : Word)
  /-- Code 6, raised by the decoder: write parameter `i` of `w` is in Immediate mode. -/
  | immediateWrite (ptr : Nat) (w : Word) (i : Nat)
  /-- Code 7, raised by operand resolution and by taken jumps: the address `value` of parameter `i` is negative. -/
  | negativeAddress (ptr : Nat) (i : Nat) (value : Int)
  /-- Code 8, raised by Add, Multiply, SetRelativeBase and the Relative address sum: `exact` is outside `i64`. -/
  | arithmeticOverflow (ptr : Nat) (exact : Int)
deriving DecidableEq, Repr

/-- The host operations that can be refused (spec/60_exceptions.md R130, code 10). -/
inductive RefusedOperation where
  | memRead
  | memWrite
  | clone
deriving DecidableEq, Repr

/-- The host errors of spec/60_exceptions.md R130 and R131: returned to the host by the operation that met them,
with no change of state. -/
inductive HostError where
  /-- Code 3: dequeue or peek of an empty channel (R139, R140). -/
  | emptyChannel
  /-- Code 9: the image text is no list of `i64` literals; the offset of the first bad token (log 12). -/
  | loadError (offset : Nat)
  /-- Code 10: a negative host address, or a clone of a faulted instance. -/
  | hostRefused (op : RefusedOperation)
deriving DecidableEq, Repr

/-- Why a step answers no next state: the two ways a step is not enabled (spec/43_engine.md R112). -/
inductive Fault where
  /-- Raised by `step` when `fault` is `some f`: the instance is stuck for good (spec/43_engine.md R117). Safe. -/
  | faulted (f : InstrFault)
  /-- Raised by `step` when `st` is not Running: only a host's run operation makes it Running. Safe. -/
  | notRunning (st : ExecState)
deriving DecidableEq, Repr

/-- Why an instruction has no meaning. No instruction of this model is refused. -/
inductive Refusal where
  /-- Raised by an arm of `exec` whose instruction has no meaning yet: safe. No arm does. -/
  | notModelled (mnemonic : String)
deriving DecidableEq, Repr

/-- One VM instance (spec/10_state.md R20): exactly the seven pieces of state the spec lists. -/
structure State where
  /-- Memory contents (R22). -/
  mem : Memory
  /-- Memory length (R23). -/
  len : Nat
  /-- Instruction pointer (R24). -/
  ptr : Nat
  /-- Relative base (R25). -/
  rb : Word
  /-- Execution State (R26). -/
  st : ExecState
  /-- I/O Channel, front first (R28). -/
  q : List Word
  /-- Fault record (R27). -/
  fault : Option InstrFault
deriving DecidableEq, Repr

/-- The reset values of spec/10_state.md R31 with nothing loaded (log 5). `load` (Machine/Load.lean) puts an image's
integers into `mem` and their number into `len`. -/
def State.reset : State where
  mem := []
  len := 0
  ptr := Config.resetVector
  rb := 0
  st := .initialized
  q := []
  fault := none

end Sys2Proof.Machine
end

