-- ==== Sys2Proof/Machine/Ops.lean ====
section
/-!
DEFINITION. The named operations over memory and registers, checked arithmetic, and raising an instruction fault.
-/
namespace Sys2Proof.Machine

/-! ## Memory as a sorted list -/

/-- Every address of `m` is at least `lo`, addresses rise strictly, and no listed cell is 0. -/
def wfFrom (lo : Nat) : Memory → Bool
  | [] => true
  | (a, v) :: m => decide (lo ≤ a) && decide (v ≠ 0) && wfFrom (a + 1) m

/-- The canonical form of memory: addresses strictly rising, no entry equal to what an unlisted address reads as. -/
def Memory.wf (m : Memory) : Bool := wfFrom 0 m

/-- The cell at address `a`; an unlisted one is 0 (spec/10_state.md R22). -/
def lookup (m : Memory) (a : Nat) : Word :=
  match m with
  | [] => 0
  | (b, v) :: m => if a = b then v else lookup m a

/-- Memory with `v` at address `a` and every other cell as it was. A 0 is not listed, so the form stays canonical. -/
def store (m : Memory) (a : Nat) (v : Word) : Memory :=
  match m with
  | [] => if v = 0 then [] else [(a, v)]
  | (b, w) :: m =>
    if a < b then (if v = 0 then (b, w) :: m else (a, v) :: (b, w) :: m)
    else if a = b then (if v = 0 then m else (a, v) :: m)
    else (b, w) :: store m a v

/-- Every listed address is below `n`. -/
def boundedBy (n : Nat) (m : Memory) : Bool := m.all fun c => decide (c.1 < n)

/-! ## The pieces of the state -/

/-- `mem(a)` of spec/10_state.md R22: the value at `a`, with no access made. -/
def State.cell (s : State) (a : Nat) : Word := lookup s.mem a

/-- Replace the cell at `a`, with no growth. -/
def State.setCell (s : State) (a : Nat) (v : Word) : State :=
  State.mk (store s.mem a v) s.len s.ptr s.rb s.st s.q s.fault

def State.setLen (s : State) (n : Nat) : State := State.mk s.mem n s.ptr s.rb s.st s.q s.fault

def State.setPtr (s : State) (p : Nat) : State := State.mk s.mem s.len p s.rb s.st s.q s.fault

def State.setRb (s : State) (v : Word) : State := State.mk s.mem s.len s.ptr v s.st s.q s.fault

def State.setSt (s : State) (x : ExecState) : State := State.mk s.mem s.len s.ptr s.rb x s.q s.fault

def State.setQ (s : State) (q : List Word) : State := State.mk s.mem s.len s.ptr s.rb s.st q s.fault

def State.setFault (s : State) (f : Option InstrFault) : State :=
  State.mk s.mem s.len s.ptr s.rb s.st s.q f

/-! ## Memory accesses -/

/-- The memory length after an access at `a` to a memory of length `len` (spec/20_memory.md R41). -/
def grownLen (len a : Nat) : Nat := if len ≤ a then max (a * 2) (a + 1) else len

/-- Grow-on-demand (R41). New cells are 0 because unlisted addresses read as 0. -/
def State.grow (s : State) (a : Nat) : State := s.setLen (grownLen s.len a)

/-- The accesses `l` in order, for what they do to the memory length. -/
def State.growAll (s : State) (l : List Nat) : State := l.foldl State.grow s

/-- `MemRead(a)` of spec/20_memory.md R42: the value, and the state after growth. -/
def State.memRead (s : State) (a : Nat) : Word × State := (s.cell a, s.grow a)

/-- `MemWrite(a, v)` of spec/20_memory.md R43. -/
def State.memWrite (s : State) (a : Nat) (v : Word) : State := (s.grow a).setCell a v

/-- `n` cells written from address `a` on, each by a `MemWrite`. -/
def State.memWriteAll (s : State) (a : Nat) : List Word → State
  | [] => s
  | v :: vs => (s.memWrite a v).memWriteAll (a + 1) vs

/-! ## Registers and the channel -/

/-- The pointer past an instruction of `n` cells (spec/30_encoding.md R63). -/
def State.advance (s : State) (n : Nat) : State := s.setPtr (s.ptr + n)

/-- `q.push_back(v)` of spec/00_scope.md R11. -/
def State.pushBack (s : State) (v : Word) : State := s.setQ (s.q ++ [v])

/-- `q.pop_front()` of spec/00_scope.md R11, `none` on an empty channel. -/
def State.popFront (s : State) : Option (Word × State) :=
  match s.q with
  | [] => none
  | v :: rest => some (v, s.setQ rest)

/-! ## Checked arithmetic -/

/-- Membership in `i64` (spec/00_scope.md R7, R8). -/
abbrev inI64 (v : Int) : Prop := Config.minValue ≤ v ∧ v ≤ Config.maxValue

/-- `checked(v)` of spec/00_scope.md R8, for the instruction at `ptr`: `v` as a cell, or ArithmeticOverflow with the
exact result. -/
def checked (ptr : Nat) (v : Int) : Except InstrFault Word :=
  if inI64 v then .ok (BitVec.ofInt 64 v) else .error (.arithmeticOverflow ptr v)

/-! ## Faults -/

/-- `raise F` (spec/60_exceptions.md R132): the fault is recorded and nothing else of the state before the
instruction changes. The machine has no trap entry beyond this (R134) and no return from one (R135). -/
def raise (f : InstrFault) (s : State) : Host.Outcome State Fault Refusal := .next (s.setFault (some f))

/-- The instruction fault of a rejected instruction word `w` at `ptr` (spec/30_encoding.md R65). -/
def rejectFault (ptr : Nat) (w : Word) : DecodeReject → InstrFault
  | .negativeInstructionWord => .negativeInstructionWord ptr w
  | .invalidOpcode => .invalidOpcode ptr w
  | .excessModeDigits => .excessModeDigits ptr w
  | .invalidParameterMode i => .invalidParameterMode ptr w i
  | .immediateWrite i => .immediateWrite ptr w i

/-- The instruction at `ptr`, or the fault its word raises (spec/43_engine.md R113, the fetch and the decode). -/
def fetchDecode (s : State) : Except InstrFault Instr :=
  match decode (s.cell s.ptr) with
  | .ok i => .ok i
  | .error r => .error (rejectFault s.ptr (s.cell s.ptr) r)

/-- The transaction of spec/43_engine.md R113: `body` works on a copy of the state on which the fetch has been made.
The copy replaces the state if `body` completes; a fault discards it and is recorded on the state before
(log 13). -/
def transact (s : State) (body : State → Except InstrFault State) : Host.Outcome State Fault Refusal :=
  match body (s.grow s.ptr) with
  | .ok s' => .next s'
  | .error f => raise f s

/-! ## Numeric codes -/

/-- The field encoding of spec/10_state.md R26. -/
def ExecState.code : ExecState → Nat
  | .initialized => 0
  | .running => 1
  | .paused => 2
  | .pausedWaitingForInput => 3
  | .stopped => 4

/-- The codes of the instruction faults (spec/60_exceptions.md R130). -/
def InstrFault.code : InstrFault → Nat
  | .invalidOpcode _ _ => 1
  | .invalidParameterMode _ _ _ => 2
  | .negativeInstructionWord _ _ => 4
  | .excessModeDigits _ _ => 5
  | .immediateWrite _ _ _ => 6
  | .negativeAddress _ _ _ => 7
  | .arithmeticOverflow _ _ => 8

/-- The recorded pointer of an instruction fault (R132: the faulting instruction's address). -/
def InstrFault.ptr : InstrFault → Nat
  | .invalidOpcode p _ => p
  | .invalidParameterMode p _ _ => p
  | .negativeInstructionWord p _ => p
  | .excessModeDigits p _ => p
  | .immediateWrite p _ _ => p
  | .negativeAddress p _ _ => p
  | .arithmeticOverflow p _ => p

/-- The codes of the host errors (spec/60_exceptions.md R130). -/
def HostError.code : HostError → Nat
  | .emptyChannel => 3
  | .loadError _ => 9
  | .hostRefused _ => 10

end Sys2Proof.Machine
end

