-- ==== Sys2Proof/Machine/Flags.lean ====
section
/-!
DEFINITION. The machine has no flags, condition codes or predicates (spec/10_state.md R29). What stands here is what
takes their place: the 0 or 1 a comparison writes to memory, and the tests of the conditional jumps.
-/
namespace Sys2Proof.Machine

/-- The cell a comparison writes: 1 if it holds, else 0 (spec/40_arith.md R83, R84). -/
def truthCell (b : Bool) : Word := if b then 1 else 0

/-- `a < b`, signed (spec/40_arith.md R80, R83). -/
def isLess (a b : Word) : Bool := decide (a.toInt < b.toInt)

/-- `a = b` (spec/40_arith.md R84). -/
def isEqual (a b : Word) : Bool := decide (a.toInt = b.toInt)

/-- The condition of JumpIfTrue: any value other than 0 (spec/42_control.md R100). -/
def isNonzero (c : Word) : Bool := decide (c.toInt ≠ 0)

/-- The condition of JumpIfFalse: the value 0 (spec/42_control.md R101). -/
def isZero (c : Word) : Bool := decide (c.toInt = 0)

end Sys2Proof.Machine
end

