-- ==== Sys2Proof/Machine/Operands.lean ====
section
/-!
DEFINITION. Every operand form: effective addresses, read parameters and write targets (spec/20_memory.md R45 to R48).
-/
namespace Sys2Proof.Machine

/-- The address of a Position-mode parameter `i` whose parameter word is `p` (spec/20_memory.md R47). -/
def eaPosition (ptr i : Nat) (p : Word) : Except InstrFault Nat :=
  if p.toInt < 0 then .error (.negativeAddress ptr i p.toInt) else .ok p.toInt.toNat

/-- The address of a Relative-mode parameter `i` whose parameter word is `p` (R47): the sum is computed in `i64`. -/
def eaRelative (ptr i : Nat) (rb p : Word) : Except InstrFault Nat := do
  let sum ← checked ptr (rb.toInt + p.toInt)
  eaPosition ptr i sum

/-- The parameter word of parameter `i`, the literal operand (spec/30_encoding.md R60). -/
def State.paramWord (s : State) (i : Nat) : Word := s.cell (s.ptr + i)

/-- The address parameter `i` is read at, `none` in Immediate mode (R45, R47). -/
def State.readAddr (s : State) (i : Nat) (m : Mode) : Except InstrFault (Option Nat) :=
  match m with
  | .position => do
    let a ← eaPosition s.ptr i (s.paramWord i)
    .ok (some a)
  | .immediate => .ok none
  | .relative => do
    let a ← eaRelative s.ptr i s.rb (s.paramWord i)
    .ok (some a)

/-- The address parameter `i` is written at (R46). An Immediate write parameter never leaves the decoder
(spec/30_encoding.md R69); on such a term this raises the decoder's fault (log 7). -/
def State.targetAddr (s : State) (i : Nat) (m : Mode) : Except InstrFault Nat :=
  match m with
  | .position => eaPosition s.ptr i (s.paramWord i)
  | .immediate => .error (.immediateWrite s.ptr (s.cell s.ptr) i)
  | .relative => eaRelative s.ptr i s.rb (s.paramWord i)

/-- `read_param(i, m)` of R45: the parameter's value and the state after the accesses made for it. -/
def readParam (i : Nat) (m : Mode) (s : State) : Except InstrFault (Word × State) := do
  let (p, c) := s.memRead (s.ptr + i)
  let addr ← s.readAddr i m
  match addr with
  | none => .ok (p, c)
  | some a => .ok (c.memRead a)

/-- `write_target(i, m)` of R46: the address and the state after the parameter word is read. The growth at the
address itself is the write's. -/
def writeTarget (i : Nat) (m : Mode) (s : State) : Except InstrFault (Nat × State) := do
  let (_, c) := s.memRead (s.ptr + i)
  let t ← s.targetAddr i m
  .ok (t, c)

/-- The transaction of an instruction whose first parameter is read: `k` goes on with its value and the state after
its accesses (R48). -/
def readFirst (m1 : Mode) (k : Word → State → Except InstrFault State) (s : State) :
    Host.Outcome State Fault Refusal :=
  transact s fun c => do
    let (v, c) ← readParam 1 m1 c
    k v c

end Sys2Proof.Machine
end

