-- ==== Sys2Proof/Machine/Arith.lean ====
section
/-!
DEFINITION. The integer ALU instructions (spec/40_arith.md): Add, Multiply, LessThan, Equals.
-/
namespace Sys2Proof.Machine

/-- The shape of the four ALU instructions: read p1, read p2, resolve p3, compute, write, advance by 4
(spec/20_memory.md R48, spec/40_arith.md R81). -/
def alu (m1 m2 m3 : Mode) (result : Word → Word → Except InstrFault Word) (s : State) :
    Host.Outcome State Fault Refusal :=
  readFirst m1 (fun a c => do
    let (b, c) ← readParam 2 m2 c
    let (t, c) ← writeTarget 3 m3 c
    let r ← result a b
    .ok ((c.memWrite t r).advance 4)) s

/-- Add (R81). -/
def execAdd (m1 m2 m3 : Mode) (s : State) : Host.Outcome State Fault Refusal :=
  alu m1 m2 m3 (fun a b => checked s.ptr (a.toInt + b.toInt)) s

/-- Multiply (R82). -/
def execMultiply (m1 m2 m3 : Mode) (s : State) : Host.Outcome State Fault Refusal :=
  alu m1 m2 m3 (fun a b => checked s.ptr (a.toInt * b.toInt)) s

/-- LessThan (R83). -/
def execLessThan (m1 m2 m3 : Mode) (s : State) : Host.Outcome State Fault Refusal :=
  alu m1 m2 m3 (fun a b => .ok (truthCell (isLess a b))) s

/-- Equals (R84). -/
def execEquals (m1 m2 m3 : Mode) (s : State) : Host.Outcome State Fault Refusal :=
  alu m1 m2 m3 (fun a b => .ok (truthCell (isEqual a b))) s

end Sys2Proof.Machine
end

