-- ==== Sys2Proof/Machine/Control.lean ====
section
/-!
DEFINITION. The control and system instructions (spec/42_control.md): JumpIfTrue, JumpIfFalse, SetRelativeBase, Halt.
-/
namespace Sys2Proof.Machine

/-- The branch write of a taken jump to the value `t` of parameter 2 (R100): a negative target faults. -/
def jumpTo (t : Word) (c : State) : Except InstrFault State :=
  if t.toInt < 0 then .error (.negativeAddress c.ptr 2 t.toInt) else .ok (c.setPtr t.toInt.toNat)

/-- The shape of the two conditional jumps: both parameters are read whether or not the jump is taken (R100, R101). -/
def jumpWhen (test : Word → Bool) (m1 m2 : Mode) (s : State) : Host.Outcome State Fault Refusal :=
  readFirst m1 (fun v c => do
    let (t, c) ← readParam 2 m2 c
    if test v then jumpTo t c else .ok (c.advance 3)) s

/-- JumpIfTrue (R100). -/
def execJumpIfTrue (m1 m2 : Mode) (s : State) : Host.Outcome State Fault Refusal :=
  jumpWhen isNonzero m1 m2 s

/-- JumpIfFalse (R101). -/
def execJumpIfFalse (m1 m2 : Mode) (s : State) : Host.Outcome State Fault Refusal :=
  jumpWhen isZero m1 m2 s

/-- SetRelativeBase (R102): it accumulates, and a Relative operand uses the old base. -/
def execSetRelativeBase (m1 : Mode) (s : State) : Host.Outcome State Fault Refusal :=
  readFirst m1 (fun a c => do
    let r ← checked c.ptr (c.rb.toInt + a.toInt)
    .ok ((c.setRb r).advance 2)) s

/-- Halt (R103): the pointer stays on the Halt word. -/
def execHalt (s : State) : Host.Outcome State Fault Refusal :=
  transact s fun c => .ok (c.setSt .stopped)

end Sys2Proof.Machine
end

