-- ==== Sys2Proof/Machine/Io.lean ====
section
/-!
DEFINITION. The I/O instructions (spec/41_io.md): Input and Output, on the one shared queue (R92).
-/
namespace Sys2Proof.Machine

/-- Input (R90). On an empty channel the only change is the execution State, and no access is made for the
parameter; otherwise the target is resolved before the front value is taken (log 13). -/
def execInput (m1 : Mode) (s : State) : Host.Outcome State Fault Refusal :=
  match s.popFront with
  | none => .next (s.setSt .pausedWaitingForInput)
  | some (v, taken) =>
    transact s fun c => do
      let (t, c) ← writeTarget 1 m1 c
      .ok (((c.setQ taken.q).memWrite t v).advance 2)

/-- Output (R91): always pauses. -/
def execOutput (m1 : Mode) (s : State) : Host.Outcome State Fault Refusal :=
  readFirst m1 (fun v c => .ok (((c.pushBack v).advance 2).setSt .paused)) s

end Sys2Proof.Machine
end

