-- ==== Sys2Proof/Machine/Step.lean ====
section
/-!
DEFINITION. One step of the Execution Engine (spec/43_engine.md R112, R113), and the placing of one instruction
where the next step fetches.
-/
namespace Sys2Proof.Machine

/-- One step. It is enabled exactly when `fault` is none and `st` is Running (R112); otherwise it stops by name
(log 3). Enabled, it executes the instruction at the pointer, or records the fault its word raises (R113, R132). -/
def step (s : State) : Host.Outcome State Fault Refusal :=
  match s.fault with
  | some f => .fault (.faulted f)
  | none =>
    if s.st = .running then
      match fetchDecode s with
      | .ok i => exec i s
      | .error f => raise f s
    else .fault (.notRunning s.st)

/-- `s` with the four cells of an instruction whose bits are `w` written from the pointer on, in a run that has just
been entered: no fault recorded and the execution State Running (log 4). -/
def State.withFetchWord (s : State) (nbits w : Nat) : State :=
  ((s.memWriteAll s.ptr
    [tableCell nbits w 0, tableCell nbits w 1, tableCell nbits w 2, tableCell nbits w 3]).setFault none).setSt .running

end Sys2Proof.Machine
end

