-- ==== Sys2Proof/Machine/Assembler.lean ====
section
/-!
DEFINITION. The assembler notation of spec/30_encoding.md R73 and R74 on operands as data: what cells a line assembles
to. It is the spec's own notation for test programs and no part of the machine (spec/92_eei_decisions.md D28); the
spelling of a line as text is left out (log 15).
-/
namespace Sys2Proof.Machine

/-- An operand of R73. -/
inductive AsmOperand where
  /-- `#v`: Immediate, value v. -/
  | imm (v : Word)
  /-- `[a]`: Position, address a. -/
  | pos (a : Word)
  /-- `[rb+o]` or `[rb-o]`: Relative, offset o. -/
  | rel (o : Word)
deriving DecidableEq, Repr

/-- A line of R73 or R74, its operands in parameter order. -/
inductive AsmLine where
  | add (a b d : AsmOperand)
  | mul (a b d : AsmOperand)
  | inp (d : AsmOperand)
  | out (a : AsmOperand)
  | jnz (c t : AsmOperand)
  | jz (c t : AsmOperand)
  | lt (a b d : AsmOperand)
  | eq (a b d : AsmOperand)
  | arb (a : AsmOperand)
  | hlt
  | data (vs : List Word)
  | mov (a d : AsmOperand)
  | jmp (t : AsmOperand)
  | nop
deriving DecidableEq, Repr

/-- The mode an operand is written in. -/
def asmMode : AsmOperand → Mode
  | .imm _ => .immediate
  | .pos _ => .position
  | .rel _ => .relative

/-- The parameter word of an operand. -/
def asmCell : AsmOperand → Word
  | .imm v => v
  | .pos a => a
  | .rel o => o

/-- The word of a well-formed instruction followed by its parameter words; `none` for an Immediate write operand
(R73: "A write operand may not be `#v`"). -/
def asmCells (i : Instr) (operands : List AsmOperand) : Option (List Word) :=
  if i.wf then some (encode i :: operands.map asmCell) else none

/-- The cells a line assembles to, unused mode digits 0 (R73); MOV, JMP and NOP by their expansions (R74). -/
def assemble (line : AsmLine) : Option (List Word) :=
  match line with
  | .add a b d => asmCells (.add (asmMode a) (asmMode b) (asmMode d)) [a, b, d]
  | .mul a b d => asmCells (.multiply (asmMode a) (asmMode b) (asmMode d)) [a, b, d]
  | .inp d => asmCells (.input (asmMode d) .position .position) [d]
  | .out a => asmCells (.output (asmMode a) .position .position) [a]
  | .jnz c t => asmCells (.jumpIfTrue (asmMode c) (asmMode t) .position) [c, t]
  | .jz c t => asmCells (.jumpIfFalse (asmMode c) (asmMode t) .position) [c, t]
  | .lt a b d => asmCells (.lessThan (asmMode a) (asmMode b) (asmMode d)) [a, b, d]
  | .eq a b d => asmCells (.equals (asmMode a) (asmMode b) (asmMode d)) [a, b, d]
  | .arb a => asmCells (.setRelativeBase (asmMode a) .position .position) [a]
  | .hlt => asmCells (.halt .position .position .position) []
  | .data vs => some vs
  | .mov a d => asmCells (.add (asmMode a) .immediate (asmMode d)) [a, .imm 0, d]
  | .jmp t => asmCells (.jumpIfTrue .immediate (asmMode t) .position) [.imm 1, t]
  | .nop => asmCells (.jumpIfTrue .immediate .immediate .position) [.imm 0, .imm 0]

end Sys2Proof.Machine
end

