-- ==== Sys2Proof/Machine/Engine.lean ====
section
/-!
DEFINITION. The run contracts of spec/43_engine.md R114 to R117. The machine has no step limit (R118): a run
operation is given as the function that follows it for a bounded number of rounds and answers `none` if it has not
returned by then, so a run that never returns answers `none` for every bound (log 10).
-/
namespace Sys2Proof.Machine

/-- The condition of R114's loop, and of R112. -/
def State.enabled (s : State) : Bool := decide (s.st = .running) && decide (s.fault = none)

/-- The loop of R114 for at most `n` steps: `none` if it has not ended. -/
def runLoop : Nat → State → Option State
  | 0, s => if s.enabled then none else some s
  | n + 1, s =>
    if s.enabled then
      match step s with
      | .next s' => runLoop n s'
      | .fault _ => some s
      | .refused _ => some s
    else some s

/-- `run(P)` of R114: nothing on a faulted or Stopped instance (R116, R117), otherwise Running and the loop. -/
def run (n : Nat) (s : State) : Option State :=
  if s.fault ≠ none ∨ s.st = .stopped then some s else runLoop n (s.setSt .running)

/-- When `run_until_halted` returns after a run (R115). -/
def State.mustReturn (s : State) : Bool :=
  decide (s.fault ≠ none) || decide (s.st = .stopped) || decide (s.st = .pausedWaitingForInput)

/-- The loop of R115 for at most `k` runs of at most `n` steps each. -/
def haltLoop (n : Nat) : Nat → State → Option State
  | 0, _ => none
  | k + 1, s =>
    match run n s with
    | none => none
    | some t => if t.mustReturn then some t else haltLoop n k t

/-- `run_until_halted(P)` of R115. -/
def runUntilHalted (n : Nat) (s : State) : Option State := haltLoop n n s

end Sys2Proof.Machine
end

