-- ==== Sys2Proof/Machine/HostOps.lean ====
section
/-!
DEFINITION. The host's operations on one instance (spec/60_exceptions.md R138 to R141 and R146, spec/20_memory.md
R55), each as a function on every state (log 11) and all of them as one type of operations.
-/
namespace Sys2Proof.Machine

/-- Host `enqueue(v)` (R138): permitted in every state, never fails. -/
def hostEnqueue (v : Word) (s : State) : State := s.pushBack v

/-- Host `dequeue()` (R139). -/
def hostDequeue (s : State) : Except HostError (Word × State) :=
  match s.popFront with
  | none => .error .emptyChannel
  | some r => .ok r

/-- Host `peek()` (R140): the front, and no change. -/
def hostPeek (s : State) : Except HostError Word :=
  match s.q with
  | [] => .error .emptyChannel
  | v :: _ => .ok v

/-- `host_mem_read(a)` (spec/20_memory.md R55). -/
def hostMemRead (a : Int) (s : State) : Except HostError (Word × State) :=
  if a < 0 then .error (.hostRefused .memRead) else .ok (s.memRead a.toNat)

/-- `host_mem_write(a, v)` (spec/20_memory.md R55). -/
def hostMemWrite (a : Int) (v : Word) (s : State) : Except HostError State :=
  if a < 0 then .error (.hostRefused .memWrite) else .ok (s.memWrite a.toNat v)

/-- The host reads `st` and `fault`, and no other register (R146). -/
def hostReadState (s : State) : ExecState × Option InstrFault := (s.st, s.fault)

/-- The operations of R146 a host performs on an instance it holds. -/
inductive HostOp where
  | run
  | runUntilHalted
  | enqueue (v : Word)
  | dequeue
  | peek
  | memRead (a : Int)
  | memWrite (a : Int) (v : Word)
  | readState
deriving DecidableEq, Repr

/-- What the host gets back (R146). -/
inductive HostReply where
  | done
  | value (v : Word)
  | status (st : ExecState) (fault : Option InstrFault)
  | error (e : HostError)
deriving DecidableEq, Repr

/-- One host operation: its reply and the instance after it. A host error changes no state (R131). `none` is a run
operation that has not returned within the bound `n` (log 10). -/
def hostOp (n : Nat) (op : HostOp) (s : State) : Option (HostReply × State) :=
  match op with
  | .run => (Sys2Proof.Machine.run n s).map fun t => (.done, t)
  | .runUntilHalted => (Sys2Proof.Machine.runUntilHalted n s).map fun t => (.done, t)
  | .enqueue v => some (.done, hostEnqueue v s)
  | .dequeue =>
    match hostDequeue s with
    | .ok (v, t) => some (.value v, t)
    | .error e => some (.error e, s)
  | .peek =>
    match hostPeek s with
    | .ok v => some (.value v, s)
    | .error e => some (.error e, s)
  | .memRead a =>
    match hostMemRead a s with
    | .ok (v, t) => some (.value v, t)
    | .error e => some (.error e, s)
  | .memWrite a v =>
    match hostMemWrite a v s with
    | .ok t => some (.done, t)
    | .error e => some (.error e, s)
  | .readState => some (.status (hostReadState s).1 (hostReadState s).2, s)

end Sys2Proof.Machine
end

