-- ==== Sys2Proof/Machine/Load.lean ====
section
/-!
DEFINITION. The reset of the machine: the image text, `load` and `clone` (spec/70_reset_and_hazards.md R160 to R163).
-/
namespace Sys2Proof.Machine

/-! ## The image grammar of R161 -/

/-- A character of `ws`. -/
def isSpaceChar (c : Char) : Bool := c == ' ' || c == '\t' || c == '\r' || c == '\n'

/-- The value of a base-10 digit. -/
def digitValue (c : Char) : Option Nat :=
  if 48 ≤ c.toNat ∧ c.toNat ≤ 57 then some (c.toNat - 48) else none

/-- The natural number a run of digits continues `acc` to. -/
def digitsFrom (acc : Nat) : List Char → Option Nat
  | [] => some acc
  | c :: cs =>
    match digitValue c with
    | none => none
    | some d => digitsFrom (acc * 10 + d) cs

/-- `digit+`. -/
def digitsValue (t : List Char) : Option Nat := if t = [] then none else digitsFrom 0 t

/-- `["+" | "-"] digit+`, as a number. -/
def signedValue (t : List Char) : Option Int :=
  match t with
  | [] => none
  | c :: ds =>
    if c = '-' then (digitsValue ds).map fun n : Nat => -(n : Int)
    else if c = '+' then (digitsValue ds).map fun n : Nat => (n : Int)
    else (digitsValue (c :: ds)).map fun n : Nat => (n : Int)

/-- A token between its `ws`. -/
def trimSpace (t : List Char) : List Char :=
  ((t.dropWhile isSpaceChar).reverse.dropWhile isSpaceChar).reverse

/-- The value of one comma-separated piece: a token of the grammar whose value lies in `i64`. -/
def tokenValue (piece : List Char) : Option Word :=
  match signedValue (trimSpace piece) with
  | none => none
  | some v => if inI64 v then some (BitVec.ofInt 64 v) else none

/-- The pieces between the commas of a text: one more than it has commas. -/
def splitCommas : List Char → List (List Char)
  | [] => [[]]
  | c :: cs =>
    if c = ',' then [] :: splitCommas cs
    else
      match splitCommas cs with
      | [] => [[c]]
      | piece :: rest => (c :: piece) :: rest

/-- The values of the pieces of a text, the first of which begins at `off`; or the offset of the first bad token,
which is where its first character other than `ws` stands, or would stand (log 12). -/
def piecesValue (off : Nat) : List (List Char) → Except HostError (List Word)
  | [] => .ok []
  | piece :: rest =>
    match tokenValue piece with
    | none => .error (.loadError (off + (piece.takeWhile isSpaceChar).length))
    | some v =>
      match piecesValue (off + piece.length + 1) rest with
      | .error e => .error e
      | .ok vs => .ok (v :: vs)

/-- The integers of an image text, or `LoadError` (R161). -/
def parseImage (text : List Char) : Except HostError (List Word) := piecesValue 0 (splitCommas text)

/-! ## Load and clone -/

/-- Memory holding `vs` from address `a` on. -/
def placeFrom (a : Nat) (vs : List Word) (m : Memory) : Memory :=
  match vs with
  | [] => m
  | v :: vs => placeFrom (a + 1) vs (store m a v)

/-- A new instance with the reset values of spec/10_state.md R31 for an image of the integers `vs`. -/
def State.ofImage (vs : List Word) : State :=
  State.mk (placeFrom Config.resetVector vs []) vs.length Config.resetVector 0 .initialized [] none

/-- `load(text)` (R160). -/
def load (text : List Char) : Except HostError State :=
  match parseImage text with
  | .error e => .error e
  | .ok vs => .ok (State.ofImage vs)

/-- `clone(P)` (R163): the new instance. The instance cloned is unchanged. -/
def clone (s : State) : Except HostError State :=
  match s.fault with
  | some _ => .error (.hostRefused .clone)
  | none => .ok (State.mk s.mem s.len Config.resetVector s.rb .initialized [] none)

end Sys2Proof.Machine
end

