-- ==== Sys2Proof/Machine/Instances.lean ====
section
/-!
DEFINITION. Several independent instances driven by one host, one operation at a time (spec/60_exceptions.md R142,
R146): creating them by `load` and `clone`, operating on one, discarding one.
-/
namespace Sys2Proof.Machine

/-- The instances a host has created, oldest first; a discarded one leaves its place empty (log 14). -/
abbrev World := List (Option State)

/-- The operations of R146, over the instances a host holds. -/
inductive WorldOp where
  | load (text : List Char)
  | clone (k : Nat)
  | discard (k : Nat)
  | onInstance (k : Nat) (op : HostOp)
deriving DecidableEq, Repr

/-- What the host gets back from an operation over its instances. -/
inductive WorldReply where
  /-- A new instance, at place `k`. -/
  | created (k : Nat)
  /-- The reply of an operation on one instance. -/
  | reply (r : HostReply)
  /-- The host holds no instance at that place: not an operation of the machine (log 14). -/
  | absent
deriving DecidableEq, Repr

/-- The instance at place `k`. -/
def instanceAt (w : World) (k : Nat) : Option State :=
  match w[k]? with
  | some (some s) => some s
  | _ => none

/-- A new instance put after the others, or the host error that created none. -/
def create (r : Except HostError State) (w : World) : WorldReply × World :=
  match r with
  | .ok s => (.created w.length, w ++ [some s])
  | .error e => (.reply (.error e), w)

/-- One operation over the instances; `none` is a run operation that has not returned within `n` (log 10). -/
def worldOp (n : Nat) (op : WorldOp) (w : World) : Option (WorldReply × World) :=
  match op with
  | .load text => some (create (Sys2Proof.Machine.load text) w)
  | .clone k =>
    match instanceAt w k with
    | none => some (.absent, w)
    | some s => some (create (Sys2Proof.Machine.clone s) w)
  | .discard k =>
    match instanceAt w k with
    | none => some (.absent, w)
    | some _ => some (.reply .done, w.set k none)
  | .onInstance k op =>
    match instanceAt w k with
    | none => some (.absent, w)
    | some s => (hostOp n op s).map fun r => (.reply r.1, w.set k (some r.2))

end Sys2Proof.Machine
end

