-- ==== Sys2Proof/Safety.lean ====
section
/-!
DEFINITION. The terms in which claims are stated: the invariant of spec/10_state.md R32, what a parameter's mode
makes of its word in exact integers, how a run ends, which instances a host can reach, and the drivers of
spec/43_engine.md R120.
-/
namespace Sys2Proof.Machine

/-! ## Invariants -/

/-- The invariant of R22 and R32: memory is in its canonical form and every cell at or above `len` is 0. -/
abbrev State.Inv (s : State) : Prop := s.mem.wf = true ∧ boundedBy s.len s.mem = true

/-- The invariant of R32 seen by a host between its operations: an instance without a fault is not Running. -/
abbrev State.Settled (s : State) : Prop := s.fault = none → s.st ≠ .running

/-! ## Parameters in exact integers -/

/-- The exact address a parameter's mode makes of its word (spec/20_memory.md R45 to R47), none in Immediate mode. -/
def State.exactAddr (s : State) (i : Nat) (m : Mode) : Option Int :=
  match m with
  | .position => some (s.paramWord i).toInt
  | .immediate => none
  | .relative => some (s.rb.toInt + (s.paramWord i).toInt)

/-- An exact address that names a cell: not negative and not above the greatest `i64` (R47). -/
abbrev validAddr (z : Int) : Prop := 0 ≤ z ∧ z ≤ Config.maxValue

/-- The value of a read parameter, none where its address names no cell (R45). -/
def State.operand (s : State) (i : Nat) (m : Mode) : Option Word :=
  match s.exactAddr i m with
  | none => some (s.paramWord i)
  | some z => if validAddr z then some (s.cell z.toNat) else none

/-- The accesses made for a read parameter, in order (spec/20_memory.md R48). -/
def State.readAccesses (s : State) (i : Nat) (m : Mode) : List Nat :=
  match s.exactAddr i m with
  | none => [s.ptr + i]
  | some z => [s.ptr + i, z.toNat]

/-- The accesses of an ALU instruction that writes at `t`, in order (R48). -/
def State.aluAccesses (s : State) (m1 m2 : Mode) (t : Nat) : List Nat :=
  s.ptr :: (s.readAccesses 1 m1 ++ s.readAccesses 2 m2 ++ [s.ptr + 3, t])

/-- The accesses of an instruction that reads parameter 1 only, in order (R48). -/
def State.readOneAccesses (s : State) (m1 : Mode) : List Nat := s.ptr :: s.readAccesses 1 m1

/-- The accesses of a jump, in order (R48). -/
def State.jumpAccesses (s : State) (m1 m2 : Mode) : List Nat :=
  s.ptr :: (s.readAccesses 1 m1 ++ s.readAccesses 2 m2)

/-! ## What a completed instruction leaves -/

/-- `u` is `s` after an instruction of `n` cells that made `accesses` in order and wrote the one cell `t`: it reads
as `v`, every other cell reads as before, and base, execution State and fault record are as before. -/
def WroteCell (s u : State) (t : Nat) (v : Word) (accesses : List Nat) (n : Nat) : Prop :=
  (s.mem.wf = true → u.cell t = v) ∧ (∀ x, x ≠ t → u.cell x = s.cell x) ∧ u.len = (s.growAll accesses).len ∧
    u.ptr = s.ptr + n ∧ u.rb = s.rb ∧ u.st = s.st ∧ u.fault = s.fault

/-- `u` is `s` after an instruction that made `accesses` in order and wrote no cell: every cell reads as before, and
the fault record is as before. -/
def WroteNoCell (s u : State) (accesses : List Nat) : Prop :=
  (∀ x, u.cell x = s.cell x) ∧ u.len = (s.growAll accesses).len ∧ u.fault = s.fault

/-- What an instruction does with the fault record: leaves it, or records a fault of its own address. -/
def FaultRecordKept (s u : State) : Prop := u.fault = s.fault ∨ ∃ f, InstrFault.ptr f = s.ptr ∧ u.fault = some f

/-! ## Outcomes and runs -/

/-- An outcome with a function applied to its next state. -/
def mapNext (f : State → State) : Host.Outcome State Fault Refusal → Host.Outcome State Fault Refusal
  | .next s => .next (f s)
  | .fault r => .fault r
  | .refused r => .refused r

/-- A state with its memory length forgotten: what a program or a host can tell (spec/20_memory.md R44). -/
def State.forgetLen (s : State) : State := s.setLen 0

/-- A state with its channel forgotten. -/
def State.forgetQ (s : State) : State := s.setQ []

/-- Halted normally (spec/43_engine.md R119). -/
abbrev State.HaltedNormally (s : State) : Prop := s.st = .stopped ∧ s.fault = none

/-- A run operation that never returns (spec/43_engine.md R118). -/
def NeverReturns (operation : Nat → State → Option State) (s : State) : Prop := ∀ n, operation n s = none

/-- The driver of spec/43_engine.md R120 that calls `run` again and again: it drains the channel after every output
pause and feeds one of its remaining inputs at every input pause, until the instance stops or its inputs run out.
At most `k` calls of at most `n` steps each. -/
def drive (n : Nat) : Nat → List Word → State → Option State
  | 0, _, _ => none
  | k + 1, inputs, s =>
    match run n s with
    | none => none
    | some t =>
      if t.fault ≠ none ∨ t.st = .stopped then some t
      else if t.st = .paused then drive n k inputs (t.setQ [])
      else
        match inputs with
        | [] => some t
        | v :: rest => drive n k rest (hostEnqueue v t)

/-! ## What a host can reach -/

/-- The instances a host can hold: loaded, cloned, or one operation further (spec/60_exceptions.md R146). -/
inductive Reachable : State → Prop where
  | load (text : List Char) (s : State) : load text = .ok s → Reachable s
  | clone (s t : State) : Reachable s → clone s = .ok t → Reachable t
  | operation (n : Nat) (op : HostOp) (s t : State) (r : HostReply) :
      Reachable s → hostOp n op s = some (r, t) → Reachable t

/-! ## Image texts -/

/-- A value as a base-10 literal of the grammar of spec/70_reset_and_hazards.md R161. -/
def decimalText (v : Word) : List Char :=
  if v.toInt < 0 then '-' :: Nat.toDigits 10 v.toInt.natAbs else Nat.toDigits 10 v.toInt.natAbs

/-- Values as one image text, comma-separated. -/
def imageText : List Word → List Char
  | [] => []
  | [v] => decimalText v
  | v :: w :: vs => decimalText v ++ ',' :: imageText (w :: vs)

/-- The natural number a run of base-10 digits writes, most significant digit first. -/
def decimalValue (digits : List Char) : Nat := digits.foldl (fun n c => n * 10 + (c.toNat - 48)) 0

/-- `piece` is a token of the grammar of spec/70_reset_and_hazards.md R161 between its white space, and `v` is the
number it writes: `ws ["+" | "-"] digit+ ws`, base 10. -/
def IsToken (piece : List Char) (v : Int) : Prop :=
  ∃ before sign digits after : List Char, piece = before ++ sign ++ digits ++ after ∧
    (∀ c ∈ before ++ after, c ∈ [' ', '\t', '\r', '\n']) ∧ digits ≠ [] ∧
    (∀ c ∈ digits, c ∈ ['0', '1', '2', '3', '4', '5', '6', '7', '8', '9']) ∧
    (sign ∈ [[], ['+']] ∧ v = decimalValue digits ∨ sign = ['-'] ∧ v = -decimalValue digits)

end Sys2Proof.Machine
end

