-- ==== Sys2Proof/Certificates/Slice0/Obligations.lean ====
section
/-!
DEFINITION. The statements for the provers. Each docstring names the rules of spec/ it formalises; a clause that rests
on a decision the spec marks as its own choice (spec/92_eei_decisions.md) names the decision.
-/
open Sys2Proof Sys2Proof.Machine

/-! ## Encoding -/

/-- Decoding the word of a well-formed instruction gives it back, every mode digit included (30_encoding.md R65, R73). -/
def Obligations.DecodeUndoesEncode : Prop := ∀ i : Instr, i.wf = true → decode (encode i) = .ok i

/-- Every accepted word is the word of the well-formed instruction it decodes to, so no digit is dropped and no two
words share an instruction. That a digit the opcode does not use is kept in the instruction is the model's choice
(log 6), where 30_encoding.md R68 only says that it is ignored; that negative words, words with digits above the mode
digits and Immediate write parameters are not accepted is the spec's own choice D6, D7 and D9. -/
def Obligations.EncodeUndoesDecode : Prop :=
  ∀ (w : Word) (i : Instr), decode w = .ok i → i.wf = true ∧ encode i = w

/-- There are exactly 225 legal instruction words (30_encoding.md R71, an inference the spec marks as derived). -/
def Obligations.LegalWordsNumber225 : Prop :=
  ∃ l : List Word, l.Nodup ∧ l.length = 225 ∧ ∀ w, w ∈ l ↔ ∃ i, decode w = .ok i

/-- 30_encoding.md R61: the opcode of a word that is not negative is its last two decimal digits, with the domain and
names of R61, and any other value is InvalidOpcode and fatal: the step records it and no step follows. -/
def Obligations.OpcodeIsTheLastTwoDigits : Prop :=
  ∀ w : Word, 0 ≤ w.toInt →
    (∀ i, decode w = .ok i → w.toInt % 100 = match i with
      | .add _ _ _ => 1
      | .multiply _ _ _ => 2
      | .input _ _ _ => 3
      | .output _ _ _ => 4
      | .jumpIfTrue _ _ _ => 5
      | .jumpIfFalse _ _ _ => 6
      | .lessThan _ _ _ => 7
      | .equals _ _ _ => 8
      | .setRelativeBase _ _ _ => 9
      | .halt _ _ _ => 99) ∧
    (w.toInt % 100 ∉ [1, 2, 3, 4, 5, 6, 7, 8, 9, 99] ↔ decode w = .error .invalidOpcode) ∧
    (w.toInt % 100 ∉ [1, 2, 3, 4, 5, 6, 7, 8, 9, 99] →
      ∀ s : State, s.fault = none → s.st = .running → s.cell s.ptr = w →
        ∃ t, step s = .next t ∧ t.fault = some (.invalidOpcode s.ptr w) ∧ ∀ u, step t ≠ .next u)

/-- The decoder's checks in their order, what each finds, and the fields of a word that passes them all
(30_encoding.md sections 1 and 2). The order and the faults NegativeInstructionWord, ExcessModeDigits and
ImmediateWrite are the spec's own choices D6 to D10. -/
def Obligations.DecodeChecksInOrder : Prop :=
  ∀ (w : Word) (d1 d2 d3 : Int) (found : Option DecodeReject),
    d1 = w.toInt / 100 % 10 → d2 = w.toInt / 1000 % 10 → d3 = w.toInt / 10000 % 10 →
    found =
      (if w.toInt < 0 then some .negativeInstructionWord
      else if w.toInt % 100 ∉ [1, 2, 3, 4, 5, 6, 7, 8, 9, 99] then some .invalidOpcode
      else if 100000 ≤ w.toInt then some .excessModeDigits
      else if 2 < d1 then some (.invalidParameterMode 1)
      else if 2 < d2 then some (.invalidParameterMode 2)
      else if 2 < d3 then some (.invalidParameterMode 3)
      else if w.toInt % 100 ∈ [1, 2, 7, 8] ∧ d3 = 1 then some (.immediateWrite 3)
      else if w.toInt % 100 = 3 ∧ d1 = 1 then some (.immediateWrite 1)
      else none) →
    match found with
    | some r => decode w = .error r
    | none => ∃ i, decode w = .ok i ∧ (opcodeNumber i.opcode : Int) = w.toInt % 100 ∧
        (modeDigit (instrModes i).1 : Int) = d1 ∧ (modeDigit (instrModes i).2.1 : Int) = d2 ∧
        (modeDigit (instrModes i).2.2 : Int) = d3

/-- One word of each family, written out in decimal digits, decodes to its instruction (95_test_vectors.md 2.1). -/
def Obligations.SampleWordsDecode : Prop :=
  decode 1002 = .ok (.multiply .position .immediate .position) ∧
  decode 21107 = .ok (.lessThan .immediate .immediate .relative) ∧
  decode 203 = .ok (.input .relative .position .position) ∧
  decode 1104 = .ok (.output .immediate .immediate .position) ∧
  decode 2106 = .ok (.jumpIfFalse .immediate .relative .position) ∧
  decode 209 = .ok (.setRelativeBase .relative .position .position) ∧
  decode 22299 = .ok (.halt .relative .relative .relative)

/-- A line of the spec's assembler notation, unless it is DATA, assembles exactly if its write operand is not `#v`; its
cells are a word that decodes to the mnemonic's instruction with the operands' modes, unused ones Position, and then
the operands' words, as many cells as the instruction is long. DATA assembles to its values (30_encoding.md R63, R73,
R74, the notation being the spec's own choice D28). -/
def Obligations.AssembledLinesDecode : Prop :=
  (∀ v : Word, asmMode (.imm v) = .immediate ∧ asmMode (.pos v) = .position ∧ asmMode (.rel v) = .relative ∧
    asmCell (.imm v) = v ∧ asmCell (.pos v) = v ∧ asmCell (.rel v) = v) ∧
  ∀ (line : AsmLine) (reads : Instr → List AsmOperand → Prop),
    (reads = fun i operands => ∃ w, assemble line = some (w :: operands.map asmCell) ∧ decode w = .ok i ∧
      1 + operands.length = instrLength i.opcode) →
    match line with
    | .add a b d => if asmMode d = .immediate then assemble line = none
        else reads (.add (asmMode a) (asmMode b) (asmMode d)) [a, b, d]
    | .mul a b d => if asmMode d = .immediate then assemble line = none
        else reads (.multiply (asmMode a) (asmMode b) (asmMode d)) [a, b, d]
    | .inp d => if asmMode d = .immediate then assemble line = none
        else reads (.input (asmMode d) .position .position) [d]
    | .out a => reads (.output (asmMode a) .position .position) [a]
    | .jnz c t => reads (.jumpIfTrue (asmMode c) (asmMode t) .position) [c, t]
    | .jz c t => reads (.jumpIfFalse (asmMode c) (asmMode t) .position) [c, t]
    | .lt a b d => if asmMode d = .immediate then assemble line = none
        else reads (.lessThan (asmMode a) (asmMode b) (asmMode d)) [a, b, d]
    | .eq a b d => if asmMode d = .immediate then assemble line = none
        else reads (.equals (asmMode a) (asmMode b) (asmMode d)) [a, b, d]
    | .arb a => reads (.setRelativeBase (asmMode a) .position .position) [a]
    | .hlt => reads (.halt .position .position .position) []
    | .data vs => assemble line = some vs
    | .mov a d => if asmMode d = .immediate then assemble line = none
        else reads (.add (asmMode a) .immediate (asmMode d)) [a, .imm 0, d]
    | .jmp t => reads (.jumpIfTrue .immediate (asmMode t) .position) [.imm 1, t]
    | .nop => reads (.jumpIfTrue .immediate .immediate .position) [.imm 0, .imm 0]

/-! ## Memory -/

/-- Grow-on-demand (20_memory.md R41): the new length, the unchanged cells, the zero cells above the old length, and
that reads and writes, the host's among them, grow by it. -/
def Obligations.GrowthFollowsNeededIndex : Prop :=
  ∀ (s : State) (a : Nat) (v : Word),
    (a < s.len → s.grow a = s) ∧
    (s.len ≤ a → (s.grow a).len = max (a * 2) (a + 1)) ∧
    (∀ x, (s.grow a).cell x = s.cell x) ∧
    (s.Inv → ∀ x, s.len ≤ x → (s.grow a).cell x = 0) ∧
    (s.memRead a).2 = s.grow a ∧ (s.memWrite a v).len = (s.grow a).len ∧
    hostMemRead (a : Int) s = .ok (s.memRead a) ∧ hostMemWrite (a : Int) v s = .ok (s.memWrite a v)

/-- 20_memory.md R42: a read returns the cell, 0 for one created by growth, and changes nothing but the length. -/
def Obligations.MemReadReturnsTheCell : Prop :=
  ∀ (s : State) (a : Nat),
    s.memRead a = (s.cell a, s.setLen (grownLen s.len a)) ∧ (s.Inv → s.len ≤ a → (s.memRead a).1 = 0)

/-- 20_memory.md R43: a write grows memory and replaces the whole cell and no other; far beyond the image it loses
nothing below and leaves every other new cell 0. -/
def Obligations.MemWriteReplacesOneCell : Prop :=
  ∀ (s : State) (a : Nat) (v : Word), s.Inv →
    (s.memWrite a v).cell a = v ∧
    (∀ x, x ≠ a → (s.memWrite a v).cell x = s.cell x) ∧
    (∀ x, x ≠ a → s.len ≤ x → (s.memWrite a v).cell x = 0) ∧
    (s.memWrite a v).len = (s.grow a).len ∧
    (s.memWrite a v).ptr = s.ptr ∧ (s.memWrite a v).rb = s.rb ∧ (s.memWrite a v).st = s.st ∧
    (s.memWrite a v).q = s.q ∧ (s.memWrite a v).fault = s.fault ∧ (s.memWrite a v).Inv

/-- Every step keeps memory canonical and 0 at and above the length (10_state.md R22, R32). -/
def Obligations.StepKeepsMemoryInvariant : Prop := ∀ s t : State, s.Inv → step s = .next t → t.Inv

/-- The state after reset has the values of 10_state.md R31 and meets the invariant. That nothing is listed in memory
and the length is 0 is the model's choice for a reset without an image (log 5). -/
def Obligations.ResetValues : Prop :=
  (∀ a, State.reset.cell a = 0) ∧ State.reset.len = 0 ∧ State.reset.ptr = 0 ∧ State.reset.rb = 0 ∧
    State.reset.st = .initialized ∧ State.reset.q = [] ∧ State.reset.fault = none ∧ State.reset.Inv

/-- The memory length never decreases, in a step or in a host operation (10_state.md R23, R32). -/
def Obligations.LenNeverDecreases : Prop :=
  (∀ s t : State, step s = .next t → s.len ≤ t.len) ∧
  (∀ (n : Nat) (op : HostOp) (s t : State) (r : HostReply), hostOp n op s = some (r, t) → s.len ≤ t.len)

/-- Two states that differ only in the memory length give the same result, but for that length, for every step and
every host operation, clone among them (20_memory.md R44, an inference the spec marks as derived). -/
def Obligations.GrowthIsUnobservable : Prop :=
  ∀ (s : State) (k : Nat),
    mapNext State.forgetLen (step (s.setLen k)) = mapNext State.forgetLen (step s) ∧
    (∀ (n : Nat) (op : HostOp),
      (hostOp n op (s.setLen k)).map (fun r => (r.1, r.2.forgetLen)) =
        (hostOp n op s).map (fun r => (r.1, r.2.forgetLen))) ∧
    (clone (s.setLen k)).map State.forgetLen = (clone s).map State.forgetLen

/-! ## Operands -/

/-- Read parameters by mode (20_memory.md section 3). The faults are the spec's own choice D5. -/
def Obligations.ReadParamResolvesByMode : Prop :=
  ∀ (s : State) (i : Nat) (p z : Int), p = (s.paramWord i).toInt → z = s.rb.toInt + p →
    readParam i .immediate s = .ok (s.paramWord i, s.grow (s.ptr + i)) ∧
    readParam i .position s =
      (if p < 0 then .error (.negativeAddress s.ptr i p)
       else .ok (s.cell p.toNat, (s.grow (s.ptr + i)).grow p.toNat)) ∧
    readParam i .relative s =
      (if z < -2 ^ 63 ∨ 2 ^ 63 ≤ z then .error (.arithmeticOverflow s.ptr z)
       else if z < 0 then .error (.negativeAddress s.ptr i z)
       else .ok (s.cell z.toNat, (s.grow (s.ptr + i)).grow z.toNat))

/-- Write targets by mode (20_memory.md section 3). The faults are the spec's own choice D5. -/
def Obligations.WriteTargetResolvesByMode : Prop :=
  ∀ (s : State) (i : Nat) (p z : Int), p = (s.paramWord i).toInt → z = s.rb.toInt + p →
    writeTarget i .position s =
      (if p < 0 then .error (.negativeAddress s.ptr i p) else .ok (p.toNat, s.grow (s.ptr + i))) ∧
    writeTarget i .relative s =
      (if z < -2 ^ 63 ∨ 2 ^ 63 ≤ z then .error (.arithmeticOverflow s.ptr z)
       else if z < 0 then .error (.negativeAddress s.ptr i z)
       else .ok (z.toNat, s.grow (s.ptr + i)))

/-! ## The integer ALU -/

/-- Add completes where its parameters resolve and the exact sum lies in `i64`: the target holds the sum, also where
it is a cell of the instruction itself (40_arith.md R81; 20_memory.md R48). -/
def Obligations.AddWritesExactSum : Prop :=
  ∀ (m1 m2 m3 : Mode) (s : State) (a b : Word) (t : Nat),
    s.operand 1 m1 = some a → s.operand 2 m2 = some b → s.targetAddr 3 m3 = .ok t →
    -2 ^ 63 ≤ a.toInt + b.toInt → a.toInt + b.toInt < 2 ^ 63 →
    ∃ (u : State) (v : Word), exec (.add m1 m2 m3) s = .next u ∧ v.toInt = a.toInt + b.toInt ∧
      WroteCell s u t v (s.aluAccesses m1 m2 t) 4 ∧ u.q = s.q

/-- Multiply completes where its parameters resolve and the exact product lies in `i64` (40_arith.md R82). -/
def Obligations.MultiplyWritesExactProduct : Prop :=
  ∀ (m1 m2 m3 : Mode) (s : State) (a b : Word) (t : Nat),
    s.operand 1 m1 = some a → s.operand 2 m2 = some b → s.targetAddr 3 m3 = .ok t →
    -2 ^ 63 ≤ a.toInt * b.toInt → a.toInt * b.toInt < 2 ^ 63 →
    ∃ (u : State) (v : Word), exec (.multiply m1 m2 m3) s = .next u ∧ v.toInt = a.toInt * b.toInt ∧
      WroteCell s u t v (s.aluAccesses m1 m2 t) 4 ∧ u.q = s.q

/-- LessThan completes where its parameters resolve: 1 or 0 by the signed comparison (40_arith.md R83). -/
def Obligations.LessThanWritesTruth : Prop :=
  ∀ (m1 m2 m3 : Mode) (s : State) (a b : Word) (t : Nat),
    s.operand 1 m1 = some a → s.operand 2 m2 = some b → s.targetAddr 3 m3 = .ok t →
    ∃ (u : State) (v : Word), exec (.lessThan m1 m2 m3) s = .next u ∧
      v.toInt = (if a.toInt < b.toInt then 1 else 0) ∧ WroteCell s u t v (s.aluAccesses m1 m2 t) 4 ∧ u.q = s.q

/-- Equals completes where its parameters resolve: 1 or 0 (40_arith.md R84). -/
def Obligations.EqualsWritesTruth : Prop :=
  ∀ (m1 m2 m3 : Mode) (s : State) (a b : Word) (t : Nat),
    s.operand 1 m1 = some a → s.operand 2 m2 = some b → s.targetAddr 3 m3 = .ok t →
    ∃ (u : State) (v : Word), exec (.equals m1 m2 m3) s = .next u ∧
      v.toInt = (if a = b then 1 else 0) ∧ WroteCell s u t v (s.aluAccesses m1 m2 t) 4 ∧ u.q = s.q

/-- An exact result outside `i64` of Add, Multiply or SetRelativeBase is recorded as ArithmeticOverflow and nothing
else changes (the spec's own choices D2, D4, D11; 40_arith.md, 42_control.md). -/
def Obligations.ArithmeticOverflowCommitsNothing : Prop :=
  ∀ (m1 m2 m3 : Mode) (s : State) (a b : Word) (t : Nat), s.operand 1 m1 = some a →
    (s.operand 2 m2 = some b → s.targetAddr 3 m3 = .ok t →
      (a.toInt + b.toInt < -2 ^ 63 ∨ 2 ^ 63 ≤ a.toInt + b.toInt →
        exec (.add m1 m2 m3) s = .next (s.setFault (some (.arithmeticOverflow s.ptr (a.toInt + b.toInt))))) ∧
      (a.toInt * b.toInt < -2 ^ 63 ∨ 2 ^ 63 ≤ a.toInt * b.toInt →
        exec (.multiply m1 m2 m3) s = .next (s.setFault (some (.arithmeticOverflow s.ptr (a.toInt * b.toInt)))))) ∧
    (s.rb.toInt + a.toInt < -2 ^ 63 ∨ 2 ^ 63 ≤ s.rb.toInt + a.toInt →
      exec (.setRelativeBase m1 m2 m3) s =
        .next (s.setFault (some (.arithmeticOverflow s.ptr (s.rb.toInt + a.toInt)))))

/-- The four ALU instructions report the first parameter that does not resolve, in the order p1, p2, p3, and change
nothing else (60_exceptions.md section 1, the spec's own choices D5, D10, D11). -/
def Obligations.AluFaultsInParameterOrder : Prop :=
  ∀ (m1 m2 m3 : Mode) (s : State) (f : InstrFault) (i : Instr),
    i ∈ [Instr.add m1 m2 m3, .multiply m1 m2 m3, .lessThan m1 m2 m3, .equals m1 m2 m3] →
    (s.readAddr 1 m1 = .error f → exec i s = .next (s.setFault (some f))) ∧
    (∀ a, s.operand 1 m1 = some a → s.readAddr 2 m2 = .error f → exec i s = .next (s.setFault (some f))) ∧
    (∀ a b, s.operand 1 m1 = some a → s.operand 2 m2 = some b → s.targetAddr 3 m3 = .error f →
      exec i s = .next (s.setFault (some f)))

/-- The frame of Add, Multiply, LessThan and Equals: base, execution State and channel are unchanged, and every cell
outside the write target reads as before (10_state.md R21, R29; 20_memory.md R43). -/
def Obligations.AluFrame : Prop :=
  ∀ (m1 m2 m3 : Mode) (s u : State) (i : Instr),
    i ∈ [Instr.add m1 m2 m3, .multiply m1 m2 m3, .lessThan m1 m2 m3, .equals m1 m2 m3] → exec i s = .next u →
    u.rb = s.rb ∧ u.st = s.st ∧ u.q = s.q ∧ FaultRecordKept s u ∧ s.len ≤ u.len ∧
    (∀ t, s.targetAddr 3 m3 = .ok t → ∀ x, x ≠ t → u.cell x = s.cell x) ∧
    (∀ f, s.targetAddr 3 m3 = .error f → ∀ x, u.cell x = s.cell x)

/-! ## I/O -/

/-- Input on an empty channel: the only change is the execution State, whatever its parameter word is (41_io.md, the
order of the checks being the spec's own choice D12). -/
def Obligations.InputPausesOnEmptyChannel : Prop :=
  ∀ (m1 m2 m3 : Mode) (s : State), s.q = [] →
    exec (.input m1 m2 m3) s = .next (s.setSt .pausedWaitingForInput)

/-- Input with a value pending completes where its target resolves: the front value moves from the channel to the
target (41_io.md R90). -/
def Obligations.InputTakesTheFront : Prop :=
  ∀ (m1 m2 m3 : Mode) (s : State) (v : Word) (rest : List Word) (t : Nat),
    s.q = v :: rest → s.targetAddr 1 m1 = .ok t →
    ∃ u : State, exec (.input m1 m2 m3) s = .next u ∧ WroteCell s u t v [s.ptr, s.ptr + 1, t] 2 ∧ u.q = rest

/-- Input with a value pending whose target does not resolve records the fault and does not consume the value
(41_io.md; 60_exceptions.md section 1, the spec's own choices D5, D11). -/
def Obligations.InputFaultKeepsTheValue : Prop :=
  ∀ (m1 m2 m3 : Mode) (s : State) (f : InstrFault), s.q ≠ [] → s.targetAddr 1 m1 = .error f →
    exec (.input m1 m2 m3) s = .next (s.setFault (some f))

/-- The frame of Input: the base is unchanged, the execution State is unchanged or waiting, the channel is unchanged
or loses its front, and every cell outside the write target reads as before (41_io.md R90). -/
def Obligations.InputFrame : Prop :=
  ∀ (m1 m2 m3 : Mode) (s u : State), exec (.input m1 m2 m3) s = .next u →
    u.rb = s.rb ∧ (u.st = s.st ∨ (s.q = [] ∧ u.st = .pausedWaitingForInput)) ∧ (u.q = s.q ∨ u.q = s.q.tail) ∧
    FaultRecordKept s u ∧ s.len ≤ u.len ∧
    (∀ t, s.targetAddr 1 m1 = .ok t → ∀ x, x ≠ t → u.cell x = s.cell x) ∧
    (∀ f, s.targetAddr 1 m1 = .error f → ∀ x, u.cell x = s.cell x)

/-- Output completes where its parameter resolves: the value goes to the back of the channel, the pointer advances by
2 and the machine pauses (41_io.md R91). -/
def Obligations.OutputAppendsAndPauses : Prop :=
  ∀ (m1 m2 m3 : Mode) (s : State) (v : Word), s.operand 1 m1 = some v →
    ∃ u : State, exec (.output m1 m2 m3) s = .next u ∧ u.q = s.q ++ [v] ∧ u.ptr = s.ptr + 2 ∧ u.st = .paused ∧
      u.rb = s.rb ∧ WroteNoCell s u (s.readOneAccesses m1)

/-- The frame of Output: the base and every cell are unchanged, the channel keeps its values in front, and the
execution State is unchanged or Paused (41_io.md R91). -/
def Obligations.OutputFrame : Prop :=
  ∀ (m1 m2 m3 : Mode) (s u : State), exec (.output m1 m2 m3) s = .next u →
    u.rb = s.rb ∧ (u.st = s.st ∨ u.st = .paused) ∧ s.q <+: u.q ∧ FaultRecordKept s u ∧ s.len ≤ u.len ∧
    ∀ x, u.cell x = s.cell x

/-! ## Control -/

/-- JumpIfTrue completes where its parameters resolve and a taken target is an address: the pointer is the target if
the condition is not 0, else 3 on (42_control.md R100). That parameter 2 is read, and memory grown, also when the jump
is not taken is the spec's own choice D13. -/
def Obligations.JumpIfTrueSetsThePointer : Prop :=
  ∀ (m1 m2 m3 : Mode) (s : State) (c t : Word), s.operand 1 m1 = some c → s.operand 2 m2 = some t →
    (c.toInt = 0 ∨ 0 ≤ t.toInt) →
    ∃ u : State, exec (.jumpIfTrue m1 m2 m3) s = .next u ∧
      u.ptr = (if c.toInt ≠ 0 then t.toInt.toNat else s.ptr + 3) ∧
      u.rb = s.rb ∧ u.st = s.st ∧ u.q = s.q ∧ WroteNoCell s u (s.jumpAccesses m1 m2)

/-- JumpIfFalse, the same with the jump taken when the condition is 0 (42_control.md R101; the spec's own choice D13). -/
def Obligations.JumpIfFalseSetsThePointer : Prop :=
  ∀ (m1 m2 m3 : Mode) (s : State) (c t : Word), s.operand 1 m1 = some c → s.operand 2 m2 = some t →
    (c.toInt ≠ 0 ∨ 0 ≤ t.toInt) →
    ∃ u : State, exec (.jumpIfFalse m1 m2 m3) s = .next u ∧
      u.ptr = (if c.toInt = 0 then t.toInt.toNat else s.ptr + 3) ∧
      u.rb = s.rb ∧ u.st = s.st ∧ u.q = s.q ∧ WroteNoCell s u (s.jumpAccesses m1 m2)

/-- A jump taken to a negative target records NegativeAddress of parameter 2 and changes nothing else
(42_control.md, the spec's own choices D11, D13). -/
def Obligations.NegativeJumpTargetFaults : Prop :=
  ∀ (m1 m2 m3 : Mode) (s : State) (c t : Word), s.operand 1 m1 = some c → s.operand 2 m2 = some t → t.toInt < 0 →
    (c.toInt ≠ 0 →
      exec (.jumpIfTrue m1 m2 m3) s = .next (s.setFault (some (.negativeAddress s.ptr 2 t.toInt)))) ∧
    (c.toInt = 0 →
      exec (.jumpIfFalse m1 m2 m3) s = .next (s.setFault (some (.negativeAddress s.ptr 2 t.toInt))))

/-- The frame of the jumps, of SetRelativeBase and of Halt: no cell changes and the channel does not; only
SetRelativeBase may change the base, and only Halt the execution State (42_control.md R100 to R103). -/
def Obligations.ControlFrame : Prop :=
  ∀ (m1 m2 m3 : Mode) (s u : State) (i : Instr),
    i ∈ [Instr.jumpIfTrue m1 m2 m3, .jumpIfFalse m1 m2 m3, .setRelativeBase m1 m2 m3, .halt m1 m2 m3] →
    exec i s = .next u →
    (∀ x, u.cell x = s.cell x) ∧ u.q = s.q ∧ FaultRecordKept s u ∧ s.len ≤ u.len ∧
    (i ≠ .setRelativeBase m1 m2 m3 → u.rb = s.rb) ∧ (i ≠ .halt m1 m2 m3 → u.st = s.st)

/-- SetRelativeBase completes where its parameter resolves and the sum lies in `i64`: it adds to the base, a Relative
parameter being read with the old base (42_control.md R102). -/
def Obligations.SetRelativeBaseAccumulates : Prop :=
  ∀ (m1 m2 m3 : Mode) (s : State) (a : Word), s.operand 1 m1 = some a →
    -2 ^ 63 ≤ s.rb.toInt + a.toInt → s.rb.toInt + a.toInt < 2 ^ 63 →
    ∃ u : State, exec (.setRelativeBase m1 m2 m3) s = .next u ∧ u.rb.toInt = s.rb.toInt + a.toInt ∧
      u.ptr = s.ptr + 2 ∧ u.st = s.st ∧ u.q = s.q ∧ WroteNoCell s u (s.readOneAccesses m1)

/-- Halt always completes: the execution State is Stopped and the pointer stays (42_control.md R103; that it stays is
the spec's own choice D14). -/
def Obligations.HaltStops : Prop :=
  ∀ (m1 m2 m3 : Mode) (s : State),
    ∃ u : State, exec (.halt m1 m2 m3) s = .next u ∧ u.st = .stopped ∧ u.ptr = s.ptr ∧ u.rb = s.rb ∧ u.q = s.q ∧
      WroteNoCell s u [s.ptr] ∧ (s.ptr < s.len → u = s.setSt .stopped)

/-- Output, SetRelativeBase and the jumps record the fault of a parameter that does not resolve, in parameter order,
and change nothing else (60_exceptions.md section 1, the spec's own choices D5, D10, D11). That a jump reports the fault
of parameter 2 also when it is not taken is the spec's own choice D13. -/
def Obligations.ReadFaultsCommitNothing : Prop :=
  ∀ (m1 m2 m3 : Mode) (s : State) (f : InstrFault),
    (s.readAddr 1 m1 = .error f → ∀ i : Instr,
      i ∈ [Instr.output m1 m2 m3, .setRelativeBase m1 m2 m3, .jumpIfTrue m1 m2 m3, .jumpIfFalse m1 m2 m3] →
      exec i s = .next (s.setFault (some f))) ∧
    (∀ c, s.operand 1 m1 = some c → s.readAddr 2 m2 = .error f → ∀ i : Instr,
      i ∈ [Instr.jumpIfTrue m1 m2 m3, .jumpIfFalse m1 m2 m3] → exec i s = .next (s.setFault (some f)))

/-! ## The engine -/

/-- An enabled step at a word the decoder accepts is the execution of that instruction (43_engine.md R113). -/
def Obligations.StepRunsDecodedInstruction : Prop :=
  ∀ (s : State) (i : Instr), s.fault = none → s.st = .running → decode (s.cell s.ptr) = .ok i → step s = exec i s

/-- An enabled step at a word the decoder rejects records the fault of that name with the pointer and the word, and
changes nothing else (60_exceptions.md section 1, the spec's own choice D11). -/
def Obligations.StepRecordsDecodeFaults : Prop :=
  ∀ (s : State) (w : Word), s.fault = none → s.st = .running → s.cell s.ptr = w →
    (decode w = .error .negativeInstructionWord →
      step s = .next (s.setFault (some (.negativeInstructionWord s.ptr w)))) ∧
    (decode w = .error .invalidOpcode → step s = .next (s.setFault (some (.invalidOpcode s.ptr w)))) ∧
    (decode w = .error .excessModeDigits → step s = .next (s.setFault (some (.excessModeDigits s.ptr w)))) ∧
    (∀ i, decode w = .error (.invalidParameterMode i) →
      step s = .next (s.setFault (some (.invalidParameterMode s.ptr w i)))) ∧
    (∀ i, decode w = .error (.immediateWrite i) →
      step s = .next (s.setFault (some (.immediateWrite s.ptr w i))))

/-- A step answers a next state exactly when the machine is Running without a fault (43_engine.md R112, an inference
the spec marks as derived); otherwise it stops by name (the model's reading, log 3). -/
def Obligations.StepEnabledExactly : Prop :=
  ∀ s : State,
    ((∃ t, step s = .next t) ↔ s.st = .running ∧ s.fault = none) ∧
    (∀ f, s.fault = some f → step s = .fault (.faulted f)) ∧
    (s.fault = none → s.st ≠ .running → step s = .fault (.notRunning s.st))

/-- Faults are precise: a step that ends with a fault recorded changes nothing else, and the fault records the
pointer of the instruction that raised it (60_exceptions.md section 1, the spec's own choice D11). -/
def Obligations.FaultCommitsNothing : Prop :=
  ∀ (s t : State) (f : InstrFault), step s = .next t → t.fault = some f →
    t = s.setFault (some f) ∧ f.ptr = s.ptr ∧ t.st = .running

/-- 10_state.md R21 and R25: a step that changes the base is a SetRelativeBase, and it added its operand. -/
def Obligations.OnlySetRelativeBaseWritesTheBase : Prop :=
  ∀ s t : State, step s = .next t → t.rb ≠ s.rb →
    ∃ m1 m2 m3 a, decode (s.cell s.ptr) = .ok (.setRelativeBase m1 m2 m3) ∧ s.operand 1 m1 = some a ∧
      t.rb.toInt = s.rb.toInt + a.toInt

/-- 43_engine.md R110: what each executed instruction does to the execution State; that a run operation snaps a new
or a paused instance to Running at the unchanged pointer; and that Stopped is terminal: no step and no run leaves it. -/
def Obligations.ExecutionStateTransitions : Prop :=
  (∀ (s t : State) (i : Instr), step s = .next t → t.fault = none → decode (s.cell s.ptr) = .ok i →
    t.st = match i.opcode with
      | .output => .paused
      | .halt => .stopped
      | .input => if s.q = [] then .pausedWaitingForInput else .running
      | _ => .running) ∧
  (∀ (n : Nat) (s : State), s.fault = none → s.st ≠ .stopped →
    run n s = runLoop n (s.setSt .running) ∧ (s.setSt .running).ptr = s.ptr ∧
      runUntilHalted n s = runUntilHalted n (s.setSt .running)) ∧
  (∀ s : State, s.st = .stopped → (∀ t, step s ≠ .next t) ∧
    ∀ (n : Nat) (t : State), (run n s = some t ∨ runUntilHalted n s = some t) → t.st = .stopped)

/-- Where a completed step leaves the pointer: past the instruction's cells, at a jump's target, or unmoved for Halt
and a pausing Input (30_encoding.md R63; 10_state.md R24; 42_control.md R100, R101). That Halt leaves it on the Halt
word is the spec's own choice D14; that parameter 2 of a jump is read, and so resolves, also when the jump is not taken
is its choice D13. -/
def Obligations.PointerFollowsInstructionLength : Prop :=
  ∀ (s t : State) (i : Instr), step s = .next t → t.fault = none → decode (s.cell s.ptr) = .ok i →
    match i with
    | .jumpIfTrue m1 m2 _ => ∃ c v, s.operand 1 m1 = some c ∧ s.operand 2 m2 = some v ∧
        t.ptr = if c.toInt ≠ 0 then v.toInt.toNat else s.ptr + 3
    | .jumpIfFalse m1 m2 _ => ∃ c v, s.operand 1 m1 = some c ∧ s.operand 2 m2 = some v ∧
        t.ptr = if c.toInt = 0 then v.toInt.toNat else s.ptr + 3
    | .input _ _ _ => t.ptr = if s.q = [] then s.ptr else s.ptr + 2
    | .halt _ _ _ => t.ptr = s.ptr
    | _ => t.ptr = s.ptr + instrLength i.opcode

/-- Self-modifying code takes effect at the next fetch: after a completed step of any of the five writing instructions
whose target is the cell the pointer moves to, that cell holds the word written, and the next step runs it or records
the fault of a word the decoder rejects (20_memory.md R54, an inference the spec marks as derived; 43_engine.md R113).
That recording the fault changes nothing else is the spec's own choice D11 (60_exceptions.md section 1), and that Input
takes the front of the channel its choice D17. -/
def Obligations.WrittenCellIsFetchedNext : Prop :=
  ∀ (s t : State) (i : Instr) (m1 m2 m3 : Mode) (w : Word),
    s.Inv → step s = .next t → t.fault = none → decode (s.cell s.ptr) = .ok i →
    (i ∈ [Instr.add m1 m2 m3, .multiply m1 m2 m3, .lessThan m1 m2 m3, .equals m1 m2 m3] ∧
        s.targetAddr 3 m3 = .ok (s.ptr + 4) ∧
        ∃ a b, s.operand 1 m1 = some a ∧ s.operand 2 m2 = some b ∧
          w.toInt = match i.opcode with
            | .add => a.toInt + b.toInt
            | .multiply => a.toInt * b.toInt
            | .lessThan => if a.toInt < b.toInt then 1 else 0
            | _ => if a = b then 1 else 0) ∨
      (i = .input m1 m2 m3 ∧ s.targetAddr 1 m1 = .ok (s.ptr + 2) ∧ s.q.head? = some w) →
    t.cell t.ptr = w ∧ t.st = .running ∧ (∀ j, decode w = .ok j → step t = exec j t) ∧
      ∀ r, decode w = .error r → step t = .next (t.setFault (some (rejectFault t.ptr w r)))

/-- The run contract (43_engine.md section 3; that a fault ends the run is the spec's own choice D11): the loop takes
enabled steps one by one and ends at the first state that is not Running or is faulted, and a run without a fault
leaves one of the three states outside Running. -/
def Obligations.RunFollowsSteps : Prop :=
  (∀ (n : Nat) (s t : State), step s = .next t → runLoop (n + 1) s = runLoop n t) ∧
  (∀ (n : Nat) (s : State), (s.st ≠ .running ∨ s.fault ≠ none) → runLoop n s = some s) ∧
  (∀ (n : Nat) (s t : State), run n s = some t → t.fault = none →
    t.st = .paused ∨ t.st = .pausedWaitingForInput ∨ t.st = .stopped)

/-- A run operation has at most one outcome: once it has returned within a bound, every greater bound gives the same
(43_engine.md R112, R119; the bound is the model's, log 10). -/
def Obligations.RunOutcomeIsUnique : Prop :=
  ∀ (n k : Nat) (s t : State), n ≤ k →
    (run n s = some t → run k s = some t) ∧ (runUntilHalted n s = some t → runUntilHalted k s = some t)

/-- run_until_halted goes on after an output pause, returns when a run ends waiting, stopped or faulted, and returns in
no other state (43_engine.md section 3; returning on a fault is the spec's own choice D11). -/
def Obligations.RunUntilHaltedResumes : Prop :=
  (∀ (n k : Nat) (s t u : State), run n s = some t → t.fault = none → t.st = .paused →
    runUntilHalted k t = some u → runUntilHalted (n + k + 1) s = some u) ∧
  (∀ (n : Nat) (s t : State), run n s = some t →
    (t.fault ≠ none ∨ t.st = .stopped ∨ t.st = .pausedWaitingForInput) → runUntilHalted (n + 1) s = some t) ∧
  (∀ (k : Nat) (s u : State), runUntilHalted k s = some u → u.fault = none →
    u.st = .stopped ∨ u.st = .pausedWaitingForInput)

/-- A machine whose step leads back to the state it is in never returns from a run operation (43_engine.md R118). -/
def Obligations.SelfLoopNeverReturns : Prop :=
  ∀ s : State, step s = .next s → NeverReturns run s ∧ NeverReturns runUntilHalted s

/-- Run operations on a Stopped or a faulted instance change nothing (43_engine.md section 3, the spec's own choices
D11, D15). -/
def Obligations.RunOnStoppedOrFaultedChangesNothing : Prop :=
  ∀ (n : Nat) (s : State), (s.st = .stopped ∨ s.fault ≠ none) →
    run n s = some s ∧ runUntilHalted (n + 1) s = some s

/-! ## The host -/

/-- The host's channel operations (60_exceptions.md section 4; the ends of the queue, the error policy and the element
`peek` returns are the spec's own choices D17, D18, D31): a value enqueued is behind all others, dequeue and peek give
the front, and on an empty channel both fail with no change. -/
def Obligations.ChannelOperations : Prop :=
  ∀ (s : State) (v : Word) (n : Nat),
    hostEnqueue v s = s.setQ (s.q ++ [v]) ∧
    (s.q = [] → hostDequeue s = .error .emptyChannel ∧ hostPeek s = .error .emptyChannel ∧
      hostOp n .dequeue s = some (.error .emptyChannel, s) ∧ hostOp n .peek s = some (.error .emptyChannel, s) ∧
      hostDequeue (hostEnqueue v s) = .ok (v, s)) ∧
    (∀ x rest, s.q = x :: rest → hostDequeue s = .ok (x, s.setQ rest) ∧ hostPeek s = .ok x ∧
      hostDequeue (hostEnqueue v s) = .ok (x, s.setQ (rest ++ [v])))

/-- Direct host memory access: it is the machine's own access, and a negative address is refused with no change
(20_memory.md section 8, the refusal being the spec's own choice D21). -/
def Obligations.HostMemoryAccess : Prop :=
  ∀ (s : State) (a : Int) (v : Word) (n : Nat),
    (0 ≤ a → hostOp n (.memRead a) s = some (.value (s.cell a.toNat), s.grow a.toNat) ∧
      hostOp n (.memWrite a v) s = some (.done, s.memWrite a.toNat v)) ∧
    (a < 0 → hostOp n (.memRead a) s = some (.error (.hostRefused .memRead), s) ∧
      hostOp n (.memWrite a v) s = some (.error (.hostRefused .memWrite), s))

/-- Clone copies memory and base, resets the rest, and refuses a faulted instance (70_reset_and_hazards.md section 1;
the copied length and the refusal are the spec's own choice D20). -/
def Obligations.CloneCopiesAndResets : Prop :=
  ∀ s : State,
    (s.fault = none → ∃ t, clone s = .ok t ∧ t.mem = s.mem ∧ t.len = s.len ∧ t.rb = s.rb ∧ t.ptr = 0 ∧
      t.st = .initialized ∧ t.q = [] ∧ t.fault = none) ∧
    (∀ f, s.fault = some f → clone s = .error (.hostRefused .clone))

/-- No host operation other than a run writes the pointer, the base, the execution State or the fault record, and a
host error changes nothing at all (60_exceptions.md R131, R146). -/
def Obligations.HostNeverWritesRegisters : Prop :=
  ∀ (n : Nat) (op : HostOp) (s t : State) (r : HostReply), hostOp n op s = some (r, t) →
    (op ≠ .run → op ≠ .runUntilHalted → t.ptr = s.ptr ∧ t.rb = s.rb ∧ t.st = s.st ∧ t.fault = s.fault) ∧
    (∀ e, r = .error e → t = s)

/-- Every instance a host can reach keeps its memory canonical and 0 at and above its length, and is not Running
unless faulted; and no host operation clears or changes a fault (10_state.md R27, R32). -/
def Obligations.ReachableInstancesKeepInvariants : Prop :=
  (∀ s : State, Reachable s → s.Inv ∧ s.Settled) ∧
  (∀ (n : Nat) (op : HostOp) (s t : State) (r : HostReply) (f : InstrFault),
    hostOp n op s = some (r, t) → s.fault = some f → t.fault = some f)

/-- Instances are independent: an operation on one, a load or a clone leaves every other instance as it was
(60_exceptions.md R142). -/
def Obligations.InstancesAreIndependent : Prop :=
  ∀ (n : Nat) (op : WorldOp) (w w' : World) (r : WorldReply) (j : Nat),
    worldOp n op w = some (r, w') → op ≠ .discard j → (∀ o, op ≠ .onInstance j o) → j < w.length →
    w'[j]? = w[j]?

/-- Pause and resume fidelity (43_engine.md R120, an inference the spec marks as derived): if a driver that calls `run`
again and again, drains each output and feeds one of `inputs` at each input pause brings an instance with an empty
channel to a normal halt, then one `run_until_halted` with `inputs` pre-loaded brings it to a normal halt with the
same memory, pointer and base. -/
def Obligations.PauseResumeFidelity : Prop :=
  ∀ (n k : Nat) (inputs : List Word) (s t : State), s.q = [] →
    drive n k inputs s = some t → t.HaltedNormally →
    ∃ (m : Nat) (u : State), runUntilHalted m (s.setQ inputs) = some u ∧ u.HaltedNormally ∧
      u.mem = t.mem ∧ u.len = t.len ∧ u.ptr = t.ptr ∧ u.rb = t.rb

/-! ## Reset by load -/

/-- The comma-separated base-10 text of any values loads to the reset state with those values from address 0 on
(70_reset_and_hazards.md R160, R161). -/
def Obligations.ImageTextLoads : Prop :=
  ∀ vs : List Word, vs ≠ [] → load (imageText vs) = .ok (State.ofImage vs)

/-- 70_reset_and_hazards.md R160: load answers a new instance exactly for a text that parses, and what it leaves in
every state element. -/
def Obligations.LoadGivesResetValues : Prop :=
  (∀ (text : List Char) (vs : List Word), parseImage text = .ok vs →
    ∃ s : State, load text = .ok s ∧
      (∀ (i : Nat) (v : Word), vs[i]? = some v → s.cell i = v) ∧ (∀ i, vs.length ≤ i → s.cell i = 0) ∧
      s.len = vs.length ∧ s.ptr = 0 ∧ s.rb = 0 ∧ s.st = .initialized ∧ s.q = [] ∧ s.fault = none) ∧
  ∀ (text : List Char) (s : State), load text = .ok s → ∃ vs, parseImage text = .ok vs

/-- A text that does not match the image grammar, or a token's value of which lies outside `i64`, answers LoadError: a
text one of whose comma-separated pieces (the empty text's one piece among them) is no token between white space with
a value in `i64`; so a text with a character outside the grammar's alphabet, the empty text, and a text that ends in a
comma (70_reset_and_hazards.md R161, the grammar being the spec's own choice D19; the offset of the empty text is the
model's reading, log 12). -/
def Obligations.LoadRefusesMalformedText : Prop :=
  (∀ pieces : List (List Char), pieces ≠ [] → (∀ p ∈ pieces, ',' ∉ p) →
    (∃ p ∈ pieces, ∀ v, IsToken p v → v < -2 ^ 63 ∨ 2 ^ 63 ≤ v) →
    ∃ off, load ([','].intercalate pieces) = .error (.loadError off)) ∧
  (∀ (text : List Char) (c : Char), c ∈ text →
    c ∉ ['0', '1', '2', '3', '4', '5', '6', '7', '8', '9', '+', '-', ',', ' ', '\t', '\r', '\n'] →
    ∃ off, load text = .error (.loadError off)) ∧
  load [] = .error (.loadError 0) ∧
  (∀ text, ∃ off, load (text ++ [',']) = .error (.loadError off))

/-- A text matches the image grammar with values in `i64` exactly if load answers the reset state with those values from
address 0 on, whatever signs, leading zeros and white space its tokens have (70_reset_and_hazards.md R160, R161, the
grammar being the spec's own choice D19). -/
def Obligations.LoadFollowsTheGrammar : Prop :=
  ∀ (pieces : List (List Char)) (s : State), pieces ≠ [] → (∀ p ∈ pieces, ',' ∉ p) →
    (load ([','].intercalate pieces) = .ok s ↔
      ∃ vs : List Word, List.Forall₂ (fun p v => IsToken p v.toInt) pieces vs ∧ s = State.ofImage vs)
end

