-- ==== Sys2Proof/Laws/Arith.lean ====
section
/-!
SUPPORT. Checked arithmetic and effective addresses: when each answers a value, and which.
-/
namespace Sys2Proof.Machine

theorem inI64_toInt (w : Word) : inI64 w.toInt := by
  have h1 : w.toInt < 2 ^ 63 := BitVec.toInt_lt
  have h2 : -2 ^ 63 ≤ w.toInt := BitVec.le_toInt w
  unfold inI64 Config.minValue Config.maxValue
  omega

/-- A number of `i64` survives the way into a cell and back. -/
theorem toInt_ofInt_of_inI64 {v : Int} (h : inI64 v) : (BitVec.ofInt 64 v).toInt = v := by
  unfold inI64 Config.minValue Config.maxValue at h
  rw [BitVec.toInt_ofInt]
  change Int.bmod v 18446744073709551616 = v
  exact Int.bmod_eq_of_le (by omega) (by omega)

theorem checked_of_inI64 {v : Int} (ptr : Nat) (h : inI64 v) :
    checked ptr v = .ok (BitVec.ofInt 64 v) := if_pos h

theorem checked_of_not_inI64 {v : Int} (ptr : Nat) (h : ¬ inI64 v) :
    checked ptr v = .error (.arithmeticOverflow ptr v) := if_neg h

theorem checked_eq_ok {ptr : Nat} {v : Int} {w : Word} (h : checked ptr v = .ok w) : inI64 v ∧ w.toInt = v := by
  unfold checked at h
  split at h
  · rename_i hv
    injection h with h
    exact ⟨hv, h ▸ toInt_ofInt_of_inI64 hv⟩
  · cases h

theorem checked_eq_error {ptr : Nat} {v : Int} {f : InstrFault} (h : checked ptr v = .error f) :
    ¬ inI64 v ∧ f = .arithmeticOverflow ptr v := by
  unfold checked at h
  split at h
  · cases h
  · rename_i hv
    injection h with h
    exact ⟨hv, h.symm⟩

theorem eaPosition_of_nonneg {p : Word} (ptr i : Nat) (h : 0 ≤ p.toInt) : eaPosition ptr i p = .ok p.toInt.toNat :=
  if_neg (by omega)

theorem eaPosition_of_neg {p : Word} (ptr i : Nat) (h : p.toInt < 0) :
    eaPosition ptr i p = .error (.negativeAddress ptr i p.toInt) := if_pos h

/-- Everything a Relative address can be (spec/20_memory.md R47). -/
theorem eaRelative_eq (ptr i : Nat) (rb p : Word) :
    eaRelative ptr i rb p =
      if inI64 (rb.toInt + p.toInt) then
        if rb.toInt + p.toInt < 0 then .error (.negativeAddress ptr i (rb.toInt + p.toInt))
        else .ok (rb.toInt + p.toInt).toNat
      else .error (.arithmeticOverflow ptr (rb.toInt + p.toInt)) := by
  unfold eaRelative
  by_cases h : inI64 (rb.toInt + p.toInt)
  · simp only [checked_of_inI64 ptr h, if_pos h]
    exact congrArg (fun z : Int =>
      if z < 0 then (Except.error (InstrFault.negativeAddress ptr i z) : Except InstrFault Nat) else .ok z.toNat)
      (toInt_ofInt_of_inI64 h)
  · simp only [checked_of_not_inI64 ptr h, if_neg h]
    rfl

end Sys2Proof.Machine
end

