-- ==== Sys2Proof/Laws/Decode.lean ====
section
/-!
SUPPORT. The tables of the decoder: what each lookup answers, and the fields of a built instruction.
-/
namespace Sys2Proof

theorem modeDigit_of_modeOfDigit {d : Nat} {m : Mode} (h : modeOfDigit d = some m) : modeDigit m = d := by
  unfold modeOfDigit at h
  split at h <;> cases h <;> rfl

theorem modeOfDigit_eq_none {d : Nat} : modeOfDigit d = none ↔ 2 < d := by
  unfold modeOfDigit
  split <;> simp_all
  omega

theorem opcodeNumber_of_opcodeOfNumber {n : Nat} {op : Opcode} (h : opcodeOfNumber n = some op) :
    opcodeNumber op = n := by
  unfold opcodeOfNumber at h
  split at h <;> cases h <;> rfl

theorem opcodeOfNumber_eq_none {n : Nat} :
    opcodeOfNumber n = none ↔ n ∉ [1, 2, 3, 4, 5, 6, 7, 8, 9, 99] := by
  unfold opcodeOfNumber
  split <;> simp_all

theorem instrOf_opcode (op : Opcode) (m1 m2 m3 : Mode) : (instrOf op m1 m2 m3).opcode = op := by
  cases op <;> rfl

theorem instrOf_modes (op : Opcode) (m1 m2 m3 : Mode) : instrModes (instrOf op m1 m2 m3) = (m1, m2, m3) := by
  cases op <;> rfl

theorem instrOf_writeMode (op : Opcode) (m1 m2 m3 : Mode) :
    (instrOf op m1 m2 m3).writeMode = (writeParam op).map fun i => modeOfParam i (m1, m2, m3) := by
  cases op <;> rfl

end Sys2Proof
end

