-- ==== Sys2Proof/Laws/State.lean ====
section
/-!
SUPPORT. One lemma per field of State per update, each true by unfolding the update.
-/
namespace Sys2Proof.Machine

variable (s : State)

@[simp] theorem State.setLen_mem (n : Nat) : (s.setLen n).mem = s.mem := rfl
@[simp] theorem State.setLen_len (n : Nat) : (s.setLen n).len = n := rfl
@[simp] theorem State.setLen_ptr (n : Nat) : (s.setLen n).ptr = s.ptr := rfl
@[simp] theorem State.setLen_rb (n : Nat) : (s.setLen n).rb = s.rb := rfl
@[simp] theorem State.setLen_st (n : Nat) : (s.setLen n).st = s.st := rfl
@[simp] theorem State.setLen_q (n : Nat) : (s.setLen n).q = s.q := rfl
@[simp] theorem State.setLen_fault (n : Nat) : (s.setLen n).fault = s.fault := rfl
@[simp] theorem State.setLen_cell (n : Nat) (a : Nat) : (s.setLen n).cell a = s.cell a := rfl

@[simp] theorem State.setPtr_mem (p : Nat) : (s.setPtr p).mem = s.mem := rfl
@[simp] theorem State.setPtr_len (p : Nat) : (s.setPtr p).len = s.len := rfl
@[simp] theorem State.setPtr_ptr (p : Nat) : (s.setPtr p).ptr = p := rfl
@[simp] theorem State.setPtr_rb (p : Nat) : (s.setPtr p).rb = s.rb := rfl
@[simp] theorem State.setPtr_st (p : Nat) : (s.setPtr p).st = s.st := rfl
@[simp] theorem State.setPtr_q (p : Nat) : (s.setPtr p).q = s.q := rfl
@[simp] theorem State.setPtr_fault (p : Nat) : (s.setPtr p).fault = s.fault := rfl
@[simp] theorem State.setPtr_cell (p : Nat) (a : Nat) : (s.setPtr p).cell a = s.cell a := rfl

@[simp] theorem State.setRb_mem (v : Word) : (s.setRb v).mem = s.mem := rfl
@[simp] theorem State.setRb_len (v : Word) : (s.setRb v).len = s.len := rfl
@[simp] theorem State.setRb_ptr (v : Word) : (s.setRb v).ptr = s.ptr := rfl
@[simp] theorem State.setRb_rb (v : Word) : (s.setRb v).rb = v := rfl
@[simp] theorem State.setRb_st (v : Word) : (s.setRb v).st = s.st := rfl
@[simp] theorem State.setRb_q (v : Word) : (s.setRb v).q = s.q := rfl
@[simp] theorem State.setRb_fault (v : Word) : (s.setRb v).fault = s.fault := rfl
@[simp] theorem State.setRb_cell (v : Word) (a : Nat) : (s.setRb v).cell a = s.cell a := rfl

@[simp] theorem State.setSt_mem (x : ExecState) : (s.setSt x).mem = s.mem := rfl
@[simp] theorem State.setSt_len (x : ExecState) : (s.setSt x).len = s.len := rfl
@[simp] theorem State.setSt_ptr (x : ExecState) : (s.setSt x).ptr = s.ptr := rfl
@[simp] theorem State.setSt_rb (x : ExecState) : (s.setSt x).rb = s.rb := rfl
@[simp] theorem State.setSt_st (x : ExecState) : (s.setSt x).st = x := rfl
@[simp] theorem State.setSt_q (x : ExecState) : (s.setSt x).q = s.q := rfl
@[simp] theorem State.setSt_fault (x : ExecState) : (s.setSt x).fault = s.fault := rfl
@[simp] theorem State.setSt_cell (x : ExecState) (a : Nat) : (s.setSt x).cell a = s.cell a := rfl

@[simp] theorem State.setQ_mem (q : List Word) : (s.setQ q).mem = s.mem := rfl
@[simp] theorem State.setQ_len (q : List Word) : (s.setQ q).len = s.len := rfl
@[simp] theorem State.setQ_ptr (q : List Word) : (s.setQ q).ptr = s.ptr := rfl
@[simp] theorem State.setQ_rb (q : List Word) : (s.setQ q).rb = s.rb := rfl
@[simp] theorem State.setQ_st (q : List Word) : (s.setQ q).st = s.st := rfl
@[simp] theorem State.setQ_q (q : List Word) : (s.setQ q).q = q := rfl
@[simp] theorem State.setQ_fault (q : List Word) : (s.setQ q).fault = s.fault := rfl
@[simp] theorem State.setQ_cell (q : List Word) (a : Nat) : (s.setQ q).cell a = s.cell a := rfl

@[simp] theorem State.setFault_mem (f : Option InstrFault) : (s.setFault f).mem = s.mem := rfl
@[simp] theorem State.setFault_len (f : Option InstrFault) : (s.setFault f).len = s.len := rfl
@[simp] theorem State.setFault_ptr (f : Option InstrFault) : (s.setFault f).ptr = s.ptr := rfl
@[simp] theorem State.setFault_rb (f : Option InstrFault) : (s.setFault f).rb = s.rb := rfl
@[simp] theorem State.setFault_st (f : Option InstrFault) : (s.setFault f).st = s.st := rfl
@[simp] theorem State.setFault_q (f : Option InstrFault) : (s.setFault f).q = s.q := rfl
@[simp] theorem State.setFault_fault (f : Option InstrFault) : (s.setFault f).fault = f := rfl
@[simp] theorem State.setFault_cell (f : Option InstrFault) (a : Nat) : (s.setFault f).cell a = s.cell a := rfl

@[simp] theorem State.setCell_mem (a : Nat) (v : Word) : (s.setCell a v).mem = store s.mem a v := rfl
@[simp] theorem State.setCell_len (a : Nat) (v : Word) : (s.setCell a v).len = s.len := rfl
@[simp] theorem State.setCell_ptr (a : Nat) (v : Word) : (s.setCell a v).ptr = s.ptr := rfl
@[simp] theorem State.setCell_rb (a : Nat) (v : Word) : (s.setCell a v).rb = s.rb := rfl
@[simp] theorem State.setCell_st (a : Nat) (v : Word) : (s.setCell a v).st = s.st := rfl
@[simp] theorem State.setCell_q (a : Nat) (v : Word) : (s.setCell a v).q = s.q := rfl
@[simp] theorem State.setCell_fault (a : Nat) (v : Word) : (s.setCell a v).fault = s.fault := rfl

@[simp] theorem State.grow_mem (a : Nat) : (s.grow a).mem = s.mem := rfl
@[simp] theorem State.grow_len (a : Nat) : (s.grow a).len = grownLen s.len a := rfl
@[simp] theorem State.grow_ptr (a : Nat) : (s.grow a).ptr = s.ptr := rfl
@[simp] theorem State.grow_rb (a : Nat) : (s.grow a).rb = s.rb := rfl
@[simp] theorem State.grow_st (a : Nat) : (s.grow a).st = s.st := rfl
@[simp] theorem State.grow_q (a : Nat) : (s.grow a).q = s.q := rfl
@[simp] theorem State.grow_fault (a : Nat) : (s.grow a).fault = s.fault := rfl
@[simp] theorem State.grow_cell (a x : Nat) : (s.grow a).cell x = s.cell x := rfl

@[simp] theorem State.memWrite_mem (a : Nat) (v : Word) : (s.memWrite a v).mem = store s.mem a v := rfl
@[simp] theorem State.memWrite_len (a : Nat) (v : Word) : (s.memWrite a v).len = grownLen s.len a := rfl
@[simp] theorem State.memWrite_ptr (a : Nat) (v : Word) : (s.memWrite a v).ptr = s.ptr := rfl
@[simp] theorem State.memWrite_rb (a : Nat) (v : Word) : (s.memWrite a v).rb = s.rb := rfl
@[simp] theorem State.memWrite_st (a : Nat) (v : Word) : (s.memWrite a v).st = s.st := rfl
@[simp] theorem State.memWrite_q (a : Nat) (v : Word) : (s.memWrite a v).q = s.q := rfl
@[simp] theorem State.memWrite_fault (a : Nat) (v : Word) : (s.memWrite a v).fault = s.fault := rfl

@[simp] theorem State.advance_mem (n : Nat) : (s.advance n).mem = s.mem := rfl
@[simp] theorem State.advance_len (n : Nat) : (s.advance n).len = s.len := rfl
@[simp] theorem State.advance_ptr (n : Nat) : (s.advance n).ptr = s.ptr + n := rfl
@[simp] theorem State.advance_rb (n : Nat) : (s.advance n).rb = s.rb := rfl
@[simp] theorem State.advance_st (n : Nat) : (s.advance n).st = s.st := rfl
@[simp] theorem State.advance_q (n : Nat) : (s.advance n).q = s.q := rfl
@[simp] theorem State.advance_fault (n : Nat) : (s.advance n).fault = s.fault := rfl
@[simp] theorem State.advance_cell (n x : Nat) : (s.advance n).cell x = s.cell x := rfl

@[simp] theorem State.pushBack_mem (v : Word) : (s.pushBack v).mem = s.mem := rfl
@[simp] theorem State.pushBack_len (v : Word) : (s.pushBack v).len = s.len := rfl
@[simp] theorem State.pushBack_ptr (v : Word) : (s.pushBack v).ptr = s.ptr := rfl
@[simp] theorem State.pushBack_rb (v : Word) : (s.pushBack v).rb = s.rb := rfl
@[simp] theorem State.pushBack_st (v : Word) : (s.pushBack v).st = s.st := rfl
@[simp] theorem State.pushBack_q (v : Word) : (s.pushBack v).q = s.q ++ [v] := rfl
@[simp] theorem State.pushBack_fault (v : Word) : (s.pushBack v).fault = s.fault := rfl
@[simp] theorem State.pushBack_cell (v : Word) (x : Nat) : (s.pushBack v).cell x = s.cell x := rfl

@[simp] theorem State.growAll_mem (l : List Nat) : (s.growAll l).mem = s.mem := by
  unfold State.growAll
  induction l generalizing s with
  | nil => rfl
  | cons a l ih => exact ih (s.grow a)

@[simp] theorem State.growAll_ptr (l : List Nat) : (s.growAll l).ptr = s.ptr := by
  unfold State.growAll
  induction l generalizing s with
  | nil => rfl
  | cons a l ih => exact ih (s.grow a)

@[simp] theorem State.growAll_rb (l : List Nat) : (s.growAll l).rb = s.rb := by
  unfold State.growAll
  induction l generalizing s with
  | nil => rfl
  | cons a l ih => exact ih (s.grow a)

@[simp] theorem State.growAll_st (l : List Nat) : (s.growAll l).st = s.st := by
  unfold State.growAll
  induction l generalizing s with
  | nil => rfl
  | cons a l ih => exact ih (s.grow a)

@[simp] theorem State.growAll_q (l : List Nat) : (s.growAll l).q = s.q := by
  unfold State.growAll
  induction l generalizing s with
  | nil => rfl
  | cons a l ih => exact ih (s.grow a)

@[simp] theorem State.growAll_fault (l : List Nat) : (s.growAll l).fault = s.fault := by
  unfold State.growAll
  induction l generalizing s with
  | nil => rfl
  | cons a l ih => exact ih (s.grow a)

@[simp] theorem State.growAll_cell (l : List Nat) (x : Nat) : (s.growAll l).cell x = s.cell x := by
  unfold State.cell
  rw [State.growAll_mem]

theorem State.growAll_append (l l' : List Nat) : s.growAll (l ++ l') = (s.growAll l).growAll l' := by
  unfold State.growAll
  exact List.foldl_append

end Sys2Proof.Machine
end

