-- ==== Sys2Proof/Laws/Memory.lean ====
section
/-!
SUPPORT. Memory as a sorted list: a read after a write, the canonical form, the bound by the memory length.
-/
namespace Sys2Proof.Machine

theorem wfFrom_mono {lo lo' : Nat} {m : Memory} (hle : lo' ≤ lo) (h : wfFrom lo m = true) :
    wfFrom lo' m = true := by
  cases m with
  | nil => rfl
  | cons c m =>
    obtain ⟨a, v⟩ := c
    simp only [wfFrom, Bool.and_eq_true, decide_eq_true_eq] at h ⊢
    exact ⟨⟨Nat.le_trans hle h.1.1, h.1.2⟩, h.2⟩

/-- An address below every listed one reads as 0. -/
theorem lookup_below {lo a : Nat} {m : Memory} (h : wfFrom lo m = true) (ha : a < lo) : lookup m a = 0 := by
  induction m generalizing lo with
  | nil => rfl
  | cons c m ih =>
    obtain ⟨b, w⟩ := c
    simp only [wfFrom, Bool.and_eq_true, decide_eq_true_eq] at h
    have hne : a ≠ b := by omega
    simp only [lookup, hne, if_false]
    exact ih h.2 (by omega)

/-- Reading the written address gives the value written. -/
theorem lookup_store_self {m : Memory} (h : m.wf = true) (a : Nat) (v : Word) : lookup (store m a v) a = v := by
  unfold Memory.wf at h
  generalize 0 = lo at h
  induction m generalizing lo with
  | nil =>
    unfold store
    split
    · rename_i hv
      exact hv.symm
    · exact if_pos rfl
  | cons c m ih =>
    obtain ⟨b, w⟩ := c
    simp only [wfFrom, Bool.and_eq_true, decide_eq_true_eq] at h
    unfold store
    split
    · rename_i hlt
      split
      · rename_i hv
        have hne : a ≠ b := by omega
        simp only [lookup, hne, if_false, hv]
        exact lookup_below h.2 (by omega)
      · simp [lookup]
    · split
      · rename_i _ heq
        split
        · rename_i hv
          rw [hv]
          exact lookup_below h.2 (by omega)
        · simp [lookup]
      · rename_i _ hne
        simp only [lookup, hne, if_false]
        exact ih _ h.2

/-- Reading any other address gives what it gave. -/
theorem lookup_store_ne (m : Memory) {a x : Nat} (v : Word) (hx : x ≠ a) : lookup (store m a v) x = lookup m x := by
  induction m with
  | nil =>
    unfold store
    split <;> simp [lookup, hx]
  | cons c m ih =>
    obtain ⟨b, w⟩ := c
    unfold store
    split
    · split <;> simp [lookup, hx]
    · split
      · rename_i _ heq
        subst heq
        split <;> simp [lookup, hx]
      · simp only [lookup, ih]

theorem wfFrom_store {lo a : Nat} {m : Memory} (v : Word) (h : wfFrom lo m = true) (ha : lo ≤ a) :
    wfFrom lo (store m a v) = true := by
  induction m generalizing lo with
  | nil =>
    unfold store
    split
    · rfl
    · rename_i hv
      simp only [wfFrom, Bool.and_eq_true, decide_eq_true_eq, Bool.and_true]
      exact ⟨ha, hv⟩
  | cons c m ih =>
    obtain ⟨b, w⟩ := c
    have h' := h
    simp only [wfFrom, Bool.and_eq_true, decide_eq_true_eq] at h
    unfold store
    split
    · rename_i hlt
      split
      · exact h'
      · rename_i hv
        simp only [wfFrom, Bool.and_eq_true, decide_eq_true_eq]
        exact ⟨⟨ha, hv⟩, ⟨by omega, h.1.2⟩, h.2⟩
    · split
      · rename_i _ heq
        subst heq
        split
        · exact wfFrom_mono (by omega) h.2
        · rename_i hv
          simp only [wfFrom, Bool.and_eq_true, decide_eq_true_eq]
          exact ⟨⟨h.1.1, hv⟩, h.2⟩
      · simp only [wfFrom, Bool.and_eq_true, decide_eq_true_eq]
        exact ⟨h.1, ih h.2 (by omega)⟩

/-- A write keeps the canonical form. -/
theorem wf_store {m : Memory} (a : Nat) (v : Word) (h : m.wf = true) : Memory.wf (store m a v) = true :=
  wfFrom_store v h (Nat.zero_le a)

theorem boundedBy_mono {n n' : Nat} {m : Memory} (hle : n ≤ n') (h : boundedBy n m = true) :
    boundedBy n' m = true := by
  unfold boundedBy at h ⊢
  rw [List.all_eq_true] at h ⊢
  intro c hc
  have := h c hc
  simp only [decide_eq_true_eq] at this ⊢
  omega

theorem boundedBy_store {n a : Nat} {m : Memory} (v : Word) (h : boundedBy n m = true) (ha : a < n) :
    boundedBy n (store m a v) = true := by
  induction m with
  | nil =>
    unfold store
    split
    · rfl
    · simp [boundedBy, ha]
  | cons c m ih =>
    obtain ⟨b, w⟩ := c
    have h' := h
    simp only [boundedBy, List.all_cons, Bool.and_eq_true, decide_eq_true_eq] at h
    unfold store
    split
    · split
      · exact h'
      · simp only [boundedBy, List.all_cons, Bool.and_eq_true, decide_eq_true_eq]
        exact ⟨ha, h⟩
    · split
      · split
        · exact h.2
        · simp only [boundedBy, List.all_cons, Bool.and_eq_true, decide_eq_true_eq]
          exact ⟨ha, h.2⟩
      · simp only [boundedBy, List.all_cons, Bool.and_eq_true, decide_eq_true_eq]
        exact ⟨h.1, ih h.2⟩

/-- Every cell at or above the bound reads as 0 (spec/10_state.md R22). -/
theorem lookup_of_boundedBy {n a : Nat} {m : Memory} (h : boundedBy n m = true) (ha : n ≤ a) : lookup m a = 0 := by
  induction m with
  | nil => rfl
  | cons c m ih =>
    obtain ⟨b, w⟩ := c
    simp only [boundedBy, List.all_cons, Bool.and_eq_true, decide_eq_true_eq] at h
    have hne : a ≠ b := by omega
    simp only [lookup, hne, if_false]
    exact ih h.2

/-! ## The memory length -/

theorem le_grownLen (len a : Nat) : len ≤ grownLen len a := by
  unfold grownLen
  split <;> omega

theorem lt_grownLen (len a : Nat) : a < grownLen len a := by
  unfold grownLen
  split <;> omega

theorem grownLen_of_lt {len a : Nat} (h : a < len) : grownLen len a = len := by
  unfold grownLen
  split <;> omega

theorem State.len_le_growAll (s : State) (l : List Nat) : s.len ≤ (s.growAll l).len := by
  unfold State.growAll
  induction l generalizing s with
  | nil => exact Nat.le_refl _
  | cons a l ih => exact Nat.le_trans (le_grownLen s.len a) (ih (s.grow a))

/-! ## The invariant of spec/10_state.md R32 -/

theorem inv_reset : State.reset.Inv := by decide

theorem State.Inv.grow {s : State} (h : s.Inv) (a : Nat) : (s.grow a).Inv :=
  ⟨h.1, boundedBy_mono (le_grownLen s.len a) h.2⟩

theorem State.Inv.growAll {s : State} (h : s.Inv) (l : List Nat) : (s.growAll l).Inv := by
  refine ⟨?_, ?_⟩
  · rw [State.growAll_mem]
    exact h.1
  · rw [State.growAll_mem]
    exact boundedBy_mono (s.len_le_growAll l) h.2

theorem State.Inv.memWrite {s : State} (h : s.Inv) (a : Nat) (v : Word) : (s.memWrite a v).Inv :=
  ⟨wf_store a v h.1, boundedBy_store v (h.grow a).2 (lt_grownLen s.len a)⟩

theorem State.Inv.cell_eq_zero {s : State} (h : s.Inv) {a : Nat} (ha : s.len ≤ a) : s.cell a = 0 :=
  lookup_of_boundedBy h.2 ha

/-- The written cell reads as the value written. -/
theorem State.memWrite_cell_self {s : State} (h : s.mem.wf = true) (a : Nat) (v : Word) :
    (s.memWrite a v).cell a = v :=
  lookup_store_self h a v

/-- Every other cell reads as before. -/
theorem State.memWrite_cell_ne (s : State) {a x : Nat} (v : Word) (hx : x ≠ a) :
    (s.memWrite a v).cell x = s.cell x :=
  lookup_store_ne s.mem v hx

end Sys2Proof.Machine
end

