-- ==== Sys2Proof/Laws/Operands.lean ====
section
/-!
SUPPORT. Operand resolution: what a read parameter and a write target can answer, in the exact terms of Safety.lean;
and that growth changes nothing they depend on (spec/20_memory.md R44).
-/
namespace Sys2Proof.Machine

variable {s : State} {i : Nat} {m : Mode}

/-- A sequence of accesses changes the memory length and nothing else. -/
theorem State.growAll_eq_setLen (s : State) (l : List Nat) : s.growAll l = s.setLen (s.growAll l).len := by
  unfold State.growAll
  induction l generalizing s with
  | nil => rfl
  | cons a l ih => exact ih (s.grow a)

@[simp] theorem State.setLen_exactAddr (n : Nat) : (s.setLen n).exactAddr i m = s.exactAddr i m := by
  cases m <;> rfl

@[simp] theorem State.setLen_operand (n : Nat) : (s.setLen n).operand i m = s.operand i m := by
  cases m <;> rfl

@[simp] theorem State.setLen_readAccesses (n : Nat) : (s.setLen n).readAccesses i m = s.readAccesses i m := by
  cases m <;> rfl

@[simp] theorem State.setLen_readAddr (n : Nat) : (s.setLen n).readAddr i m = s.readAddr i m := by
  cases m <;> rfl

@[simp] theorem State.setLen_targetAddr (n : Nat) : (s.setLen n).targetAddr i m = s.targetAddr i m := by
  cases m <;> rfl

@[simp] theorem State.growAll_operand (l : List Nat) : (s.growAll l).operand i m = s.operand i m := by
  rw [State.growAll_eq_setLen, State.setLen_operand]

@[simp] theorem State.growAll_readAccesses (l : List Nat) :
    (s.growAll l).readAccesses i m = s.readAccesses i m := by
  rw [State.growAll_eq_setLen, State.setLen_readAccesses]

@[simp] theorem State.growAll_readAddr (l : List Nat) : (s.growAll l).readAddr i m = s.readAddr i m := by
  rw [State.growAll_eq_setLen, State.setLen_readAddr]

@[simp] theorem State.growAll_targetAddr (l : List Nat) : (s.growAll l).targetAddr i m = s.targetAddr i m := by
  rw [State.growAll_eq_setLen, State.setLen_targetAddr]

/-! ## Faults of resolution -/

/-- Every fault of an address in Position mode records the pointer. -/
theorem eaPosition_error_ptr {ptr : Nat} {p : Word} {f : InstrFault} (h : eaPosition ptr i p = .error f) :
    f.ptr = ptr := by
  unfold eaPosition at h
  split at h
  · injection h with h
    rw [← h]
    rfl
  · cases h

theorem eaRelative_error_ptr {ptr : Nat} {rb p : Word} {f : InstrFault} (h : eaRelative ptr i rb p = .error f) :
    f.ptr = ptr := by
  rw [eaRelative_eq] at h
  split at h
  · split at h
    · injection h with h
      rw [← h]
      rfl
    · cases h
  · injection h with h
    rw [← h]
    rfl

theorem readAddr_error_ptr {f : InstrFault} (h : s.readAddr i m = .error f) : f.ptr = s.ptr := by
  cases m with
  | position =>
    simp only [State.readAddr] at h
    cases ha : eaPosition s.ptr i (s.paramWord i) with
    | error g =>
      rw [ha] at h
      injection h with h
      exact h ▸ eaPosition_error_ptr ha
    | ok a =>
      rw [ha] at h
      cases h
  | immediate => cases h
  | relative =>
    simp only [State.readAddr] at h
    cases ha : eaRelative s.ptr i s.rb (s.paramWord i) with
    | error g =>
      rw [ha] at h
      injection h with h
      exact h ▸ eaRelative_error_ptr ha
    | ok a =>
      rw [ha] at h
      cases h

theorem targetAddr_error_ptr {f : InstrFault} (h : s.targetAddr i m = .error f) : f.ptr = s.ptr := by
  cases m with
  | position => exact eaPosition_error_ptr h
  | immediate =>
    injection h with h
    rw [← h]
    rfl
  | relative => exact eaRelative_error_ptr h

/-! ## Read parameters -/

/-- Everything the address of a read parameter can be, in exact integers. -/
theorem readAddr_eq :
    s.readAddr i m =
      match s.exactAddr i m with
      | none => .ok none
      | some z =>
        if z < Config.minValue ∨ Config.maxValue < z then .error (.arithmeticOverflow s.ptr z)
        else if z < 0 then .error (.negativeAddress s.ptr i z)
        else .ok (some z.toNat) := by
  cases m with
  | position =>
    have hp := inI64_toInt (s.paramWord i)
    have hr : ¬ ((s.paramWord i).toInt < Config.minValue ∨ Config.maxValue < (s.paramWord i).toInt) := by
      unfold inI64 at hp
      omega
    simp only [State.readAddr, State.exactAddr, hr, if_false]
    by_cases hz : (s.paramWord i).toInt < 0
    · rw [if_pos hz, eaPosition_of_neg _ _ hz]
      rfl
    · rw [if_neg hz, eaPosition_of_nonneg _ _ (by omega)]
      rfl
  | immediate => rfl
  | relative =>
    simp only [State.readAddr, State.exactAddr, eaRelative_eq]
    by_cases hr : inI64 (s.rb.toInt + (s.paramWord i).toInt)
    · have hr' : ¬ (s.rb.toInt + (s.paramWord i).toInt < Config.minValue ∨
          Config.maxValue < s.rb.toInt + (s.paramWord i).toInt) := by
        unfold inI64 at hr
        omega
      rw [if_pos hr, if_neg hr']
      by_cases hz : s.rb.toInt + (s.paramWord i).toInt < 0
      · rw [if_pos hz, if_pos hz]
        rfl
      · rw [if_neg hz, if_neg hz]
        rfl
    · have hr' : s.rb.toInt + (s.paramWord i).toInt < Config.minValue ∨
          Config.maxValue < s.rb.toInt + (s.paramWord i).toInt := by
        unfold inI64 at hr
        omega
      rw [if_neg hr, if_pos hr']
      rfl

/-- Everything a write target that is not Immediate can be, in exact integers. -/
theorem targetAddr_eq (hm : m ≠ .immediate) :
    s.targetAddr i m =
      match s.exactAddr i m with
      | none => .error (.immediateWrite s.ptr (s.cell s.ptr) i)
      | some z =>
        if z < Config.minValue ∨ Config.maxValue < z then .error (.arithmeticOverflow s.ptr z)
        else if z < 0 then .error (.negativeAddress s.ptr i z)
        else .ok z.toNat := by
  have h := readAddr_eq (s := s) (i := i) (m := m)
  cases m with
  | immediate => exact absurd rfl hm
  | position =>
    simp only [State.readAddr, State.exactAddr, State.targetAddr] at h ⊢
    cases ha : eaPosition s.ptr i (s.paramWord i) with
    | error g =>
      rw [ha] at h
      change Except.error g = _ at h
      split at h
      · rw [if_pos ‹_›]
        injection h with h
        rw [h]
      · rw [if_neg ‹_›]
        split at h
        · rw [if_pos ‹_›]
          injection h with h
          rw [h]
        · cases h
    | ok a =>
      rw [ha] at h
      change Except.ok (some a) = _ at h
      split at h
      · cases h
      · rw [if_neg ‹_›]
        split at h
        · cases h
        · rw [if_neg ‹_›]
          injection h with h
          injection h with h
          rw [h]
  | relative =>
    simp only [State.readAddr, State.exactAddr, State.targetAddr] at h ⊢
    cases ha : eaRelative s.ptr i s.rb (s.paramWord i) with
    | error g =>
      rw [ha] at h
      change Except.error g = _ at h
      split at h
      · rw [if_pos ‹_›]
        injection h with h
        rw [h]
      · rw [if_neg ‹_›]
        split at h
        · rw [if_pos ‹_›]
          injection h with h
          rw [h]
        · cases h
    | ok a =>
      rw [ha] at h
      change Except.ok (some a) = _ at h
      split at h
      · cases h
      · rw [if_neg ‹_›]
        split at h
        · cases h
        · rw [if_neg ‹_›]
          injection h with h
          injection h with h
          rw [h]

/-- A read parameter with a value answers it, after the accesses of R48. -/
theorem readParam_of_operand {v : Word} (h : s.operand i m = some v) :
    readParam i m s = .ok (v, s.growAll (s.readAccesses i m)) := by
  unfold State.operand at h
  unfold readParam
  rw [readAddr_eq]
  unfold State.readAccesses
  cases hz : s.exactAddr i m with
  | none =>
    rw [hz] at h
    injection h with h
    rw [← h]
    rfl
  | some z =>
    rw [hz] at h
    simp only at h
    split at h
    · rename_i hv
      injection h with h
      have h1 : ¬ (z < Config.minValue ∨ Config.maxValue < z) := by
        unfold validAddr at hv
        have : Config.minValue < 0 := by decide
        omega
      have h2 : ¬ z < 0 := by
        unfold validAddr at hv
        omega
      simp only [h1, h2, if_false]
      rw [← h]
      rfl
    · cases h

/-- A read parameter whose address faults answers that fault. -/
theorem readParam_of_error {f : InstrFault} (h : s.readAddr i m = .error f) : readParam i m s = .error f := by
  unfold readParam
  rw [h]
  rfl

/-- A read parameter has a value, or its address faults. -/
theorem operand_or_error (s : State) (i : Nat) (m : Mode) :
    (∃ v, s.operand i m = some v) ∨ (∃ f, s.readAddr i m = .error f ∧ s.operand i m = none) := by
  rw [readAddr_eq]
  unfold State.operand
  cases hz : s.exactAddr i m with
  | none => exact .inl ⟨_, rfl⟩
  | some z =>
    simp only
    by_cases h1 : z < Config.minValue ∨ Config.maxValue < z
    · have hv : ¬ validAddr z := by
        unfold validAddr
        have : Config.minValue < 0 := by decide
        omega
      exact .inr ⟨_, if_pos h1, if_neg hv⟩
    · rw [if_neg h1]
      by_cases h2 : z < 0
      · have hv : ¬ validAddr z := by
          unfold validAddr
          omega
        exact .inr ⟨_, if_pos h2, if_neg hv⟩
      · have hv : validAddr z := by
          unfold validAddr
          omega
        exact .inl ⟨_, if_pos hv⟩

/-- Everything a read parameter can answer. -/
theorem readParam_cases (i : Nat) (m : Mode) (s : State) :
    (∃ v, s.operand i m = some v ∧ readParam i m s = .ok (v, s.growAll (s.readAccesses i m))) ∨
    (∃ f, f.ptr = s.ptr ∧ s.readAddr i m = .error f ∧ readParam i m s = .error f) := by
  rcases operand_or_error s i m with ⟨v, hv⟩ | ⟨f, hf, -⟩
  · exact .inl ⟨v, hv, readParam_of_operand hv⟩
  · exact .inr ⟨f, readAddr_error_ptr hf, hf, readParam_of_error hf⟩

/-! ## Write targets -/

theorem writeTarget_of_ok {t : Nat} (h : s.targetAddr i m = .ok t) :
    writeTarget i m s = .ok (t, s.growAll [s.ptr + i]) := by
  unfold writeTarget
  rw [h]
  rfl

theorem writeTarget_of_error {f : InstrFault} (h : s.targetAddr i m = .error f) :
    writeTarget i m s = .error f := by
  unfold writeTarget
  rw [h]
  rfl

/-- Everything a write target can answer. -/
theorem writeTarget_cases (i : Nat) (m : Mode) (s : State) :
    (∃ t, s.targetAddr i m = .ok t ∧ writeTarget i m s = .ok (t, s.growAll [s.ptr + i])) ∨
    (∃ f, f.ptr = s.ptr ∧ s.targetAddr i m = .error f ∧ writeTarget i m s = .error f) := by
  cases h : s.targetAddr i m with
  | ok t => exact .inl ⟨t, rfl, writeTarget_of_ok h⟩
  | error f => exact .inr ⟨f, targetAddr_error_ptr h, rfl, writeTarget_of_error h⟩

end Sys2Proof.Machine
end

