-- ==== Sys2Proof/Laws/Exec.lean ====
section
/-!
SUPPORT. What each shared shape of an instruction can answer: a completed effect, or a fault recorded on the state
before. One lemma per shape, cited by name instead of unfolding the shape.
-/
namespace Sys2Proof.Machine

variable {s : State} {m1 m2 m3 : Mode}

/-- A fault recorded on the state before: everything a faulting instruction does (spec/60_exceptions.md R132). -/
def Faulted (s u : State) : Prop := ∃ f, InstrFault.ptr f = s.ptr ∧ u = s.setFault (some f)

/-- A completed ALU instruction on operands `a` and `b` with target `t` and result `r`. -/
def State.aluDone (s : State) (m1 m2 : Mode) (t : Nat) (r : Word) : State :=
  ((s.growAll (s.aluAccesses m1 m2 t)).setCell t r).setPtr (s.ptr + 4)

/-- A first parameter with a value: the rest goes on with it, after the accesses of R48. -/
theorem readFirst_of_operand {k : Word → State → Except InstrFault State} {a : Word}
    (h : s.operand 1 m1 = some a) :
    readFirst m1 k s =
      match k a (s.growAll (s.readOneAccesses m1)) with
      | .ok u => .next u
      | .error f => raise f s := by
  have e0 : s.grow s.ptr = s.growAll [s.ptr] := rfl
  unfold readFirst transact
  rw [e0]
  beta_reduce
  rw [readParam_of_operand (s := s.growAll [s.ptr]) (v := a) (by rw [State.growAll_operand]; exact h)]
  simp only [bind, Except.bind, State.growAll_readAccesses, ← State.growAll_append]
  rfl

/-- A first parameter whose address faults: the fault is recorded. -/
theorem readFirst_of_error {k : Word → State → Except InstrFault State} {f : InstrFault}
    (h : s.readAddr 1 m1 = .error f) : readFirst m1 k s = raise f s := by
  have e0 : s.grow s.ptr = s.growAll [s.ptr] := rfl
  unfold readFirst transact
  rw [e0]
  beta_reduce
  rw [readParam_of_error (f := f) (by rw [State.growAll_readAddr]; exact h)]
  rfl

/-- Everything an ALU instruction does once its parameters are resolved. -/
theorem alu_of_operands {result : Word → Word → Except InstrFault Word} {a b : Word} {t : Nat}
    (h1 : s.operand 1 m1 = some a) (h2 : s.operand 2 m2 = some b) (h3 : s.targetAddr 3 m3 = .ok t) :
    alu m1 m2 m3 result s =
      match result a b with
      | .ok r => .next (s.aluDone m1 m2 t r)
      | .error f => raise f s := by
  unfold alu
  rw [readFirst_of_operand h1]
  rw [readParam_of_operand (v := b) (by rw [State.growAll_operand]; exact h2)]
  simp only [bind, Except.bind, State.growAll_readAccesses, ← State.growAll_append]
  rw [writeTarget_of_ok (t := t) (by rw [State.growAll_targetAddr]; exact h3)]
  simp only [State.growAll_ptr, ← State.growAll_append]
  cases result a b with
  | error f => rfl
  | ok r =>
    have e : s.growAll (s.aluAccesses m1 m2 t) =
        (s.growAll (s.readOneAccesses m1 ++ s.readAccesses 2 m2 ++ [s.ptr + 3])).grow t := by
      change _ = (State.growAll _ _).growAll [t]
      rw [← State.growAll_append]
      simp only [State.aluAccesses, State.readOneAccesses, List.append_assoc, List.cons_append, List.nil_append]
    simp only [State.aluDone, e, State.memWrite, State.advance, State.setCell_ptr, State.grow_ptr,
      State.growAll_ptr]

theorem alu_of_error1 {result : Word → Word → Except InstrFault Word} {f : InstrFault}
    (h : s.readAddr 1 m1 = .error f) : alu m1 m2 m3 result s = raise f s :=
  readFirst_of_error h

theorem alu_of_error2 {result : Word → Word → Except InstrFault Word} {f : InstrFault} {a : Word}
    (h1 : s.operand 1 m1 = some a) (h : s.readAddr 2 m2 = .error f) : alu m1 m2 m3 result s = raise f s := by
  unfold alu
  rw [readFirst_of_operand h1, readParam_of_error (f := f) (by rw [State.growAll_readAddr]; exact h)]
  rfl

theorem alu_of_error3 {result : Word → Word → Except InstrFault Word} {f : InstrFault} {a b : Word}
    (h1 : s.operand 1 m1 = some a) (h2 : s.operand 2 m2 = some b) (h : s.targetAddr 3 m3 = .error f) :
    alu m1 m2 m3 result s = raise f s := by
  unfold alu
  rw [readFirst_of_operand h1, readParam_of_operand (v := b) (by rw [State.growAll_operand]; exact h2)]
  simp only [bind, Except.bind]
  rw [writeTarget_of_error (f := f) (by simp only [State.growAll_targetAddr]; exact h)]

/-- Everything an ALU instruction can do. -/
theorem alu_cases (m1 m2 m3 : Mode) (result : Word → Word → Except InstrFault Word) (s : State)
    (hr : ∀ a b f, result a b = .error f → f.ptr = s.ptr) :
    ∃ u, alu m1 m2 m3 result s = .next u ∧
      ((∃ a b t r, s.operand 1 m1 = some a ∧ s.operand 2 m2 = some b ∧ s.targetAddr 3 m3 = .ok t ∧
        result a b = .ok r ∧ u = s.aluDone m1 m2 t r) ∨ Faulted s u) := by
  rcases operand_or_error s 1 m1 with ⟨a, ha⟩ | ⟨f, hf, -⟩
  · rcases operand_or_error s 2 m2 with ⟨b, hb⟩ | ⟨f, hf, -⟩
    · cases ht : s.targetAddr 3 m3 with
      | error f => exact ⟨_, alu_of_error3 ha hb ht, .inr ⟨f, targetAddr_error_ptr ht, rfl⟩⟩
      | ok t =>
        have h := alu_of_operands (result := result) ha hb ht
        cases hres : result a b with
        | error f => exact ⟨_, by rw [h, hres]; rfl, .inr ⟨f, hr a b f hres, rfl⟩⟩
        | ok r => exact ⟨_, by rw [h, hres], .inl ⟨a, b, t, r, ha, hb, rfl, hres, rfl⟩⟩
    · exact ⟨_, alu_of_error2 ha hf, .inr ⟨f, readAddr_error_ptr hf, rfl⟩⟩
  · exact ⟨_, alu_of_error1 hf, .inr ⟨f, readAddr_error_ptr hf, rfl⟩⟩

/-! ## Instructions that read one parameter -/

/-- A completed Output of `v`. -/
def State.outputDone (s : State) (m1 : Mode) (v : Word) : State :=
  (((s.growAll (s.readOneAccesses m1)).setQ (s.q ++ [v])).setPtr (s.ptr + 2)).setSt .paused

theorem execOutput_of_operand {v : Word} (h : s.operand 1 m1 = some v) :
    execOutput m1 s = .next (s.outputDone m1 v) := by
  unfold execOutput
  rw [readFirst_of_operand h]
  simp only [State.pushBack, State.advance, State.setQ_ptr, State.growAll_ptr, State.growAll_q, State.outputDone]

/-- Everything Output can do. -/
theorem execOutput_cases (m1 : Mode) (s : State) :
    ∃ u, execOutput m1 s = .next u ∧
      ((∃ v, s.operand 1 m1 = some v ∧ u = s.outputDone m1 v) ∨ Faulted s u) := by
  rcases operand_or_error s 1 m1 with ⟨a, ha⟩ | ⟨f, hf, -⟩
  · exact ⟨_, execOutput_of_operand ha, .inl ⟨a, ha, rfl⟩⟩
  · exact ⟨_, readFirst_of_error hf, .inr ⟨f, readAddr_error_ptr hf, rfl⟩⟩

/-- A completed SetRelativeBase whose new base is `r`. -/
def State.rebaseDone (s : State) (m1 : Mode) (r : Word) : State :=
  ((s.growAll (s.readOneAccesses m1)).setRb r).setPtr (s.ptr + 2)

theorem execSetRelativeBase_of_operand {a : Word} (h : s.operand 1 m1 = some a) :
    execSetRelativeBase m1 s =
      match checked s.ptr (s.rb.toInt + a.toInt) with
      | .ok r => .next (s.rebaseDone m1 r)
      | .error f => raise f s := by
  unfold execSetRelativeBase
  rw [readFirst_of_operand h]
  simp only [State.growAll_ptr, State.growAll_rb]
  cases checked s.ptr (s.rb.toInt + a.toInt) with
  | error f => rfl
  | ok r =>
    simp only [bind, Except.bind, State.advance, State.setRb_ptr, State.growAll_ptr, State.rebaseDone]

/-- Everything SetRelativeBase can do. -/
theorem execSetRelativeBase_cases (m1 : Mode) (s : State) :
    ∃ u, execSetRelativeBase m1 s = .next u ∧
      ((∃ a r, s.operand 1 m1 = some a ∧ r.toInt = s.rb.toInt + a.toInt ∧ u = s.rebaseDone m1 r) ∨
        Faulted s u) := by
  rcases operand_or_error s 1 m1 with ⟨a, ha⟩ | ⟨f, hf, -⟩
  · have h := execSetRelativeBase_of_operand ha
    cases hc : checked s.ptr (s.rb.toInt + a.toInt) with
    | error f =>
      exact ⟨_, by rw [h, hc]; rfl, .inr ⟨f, by rw [(checked_eq_error hc).2]; rfl, rfl⟩⟩
    | ok r => exact ⟨_, by rw [h, hc], .inl ⟨a, r, ha, (checked_eq_ok hc).2, rfl⟩⟩
  · exact ⟨_, readFirst_of_error hf, .inr ⟨f, readAddr_error_ptr hf, rfl⟩⟩

/-! ## Jumps -/

/-- A completed jump instruction that leaves the pointer at `p`. -/
def State.jumpDone (s : State) (m1 m2 : Mode) (p : Nat) : State :=
  (s.growAll (s.jumpAccesses m1 m2)).setPtr p

theorem jumpWhen_of_operands {test : Word → Bool} {v t : Word}
    (h1 : s.operand 1 m1 = some v) (h2 : s.operand 2 m2 = some t) :
    jumpWhen test m1 m2 s =
      if test v then
        if t.toInt < 0 then raise (.negativeAddress s.ptr 2 t.toInt) s
        else .next (s.jumpDone m1 m2 t.toInt.toNat)
      else .next (s.jumpDone m1 m2 (s.ptr + 3)) := by
  unfold jumpWhen
  rw [readFirst_of_operand h1]
  rw [readParam_of_operand (v := t) (by rw [State.growAll_operand]; exact h2)]
  simp only [bind, Except.bind, State.growAll_readAccesses, ← State.growAll_append]
  have e : s.readOneAccesses m1 ++ s.readAccesses 2 m2 = s.jumpAccesses m1 m2 := rfl
  rw [e]
  cases test v with
  | false => simp only [Bool.false_eq_true, if_false, State.advance, State.growAll_ptr, State.jumpDone]
  | true =>
    simp only [if_true, jumpTo, State.growAll_ptr]
    by_cases hn : t.toInt < 0
    · rw [if_pos hn, if_pos hn]
    · rw [if_neg hn, if_neg hn]
      rfl

theorem jumpWhen_of_error1 {test : Word → Bool} {f : InstrFault} (h : s.readAddr 1 m1 = .error f) :
    jumpWhen test m1 m2 s = raise f s :=
  readFirst_of_error h

theorem jumpWhen_of_error2 {test : Word → Bool} {f : InstrFault} {v : Word}
    (h1 : s.operand 1 m1 = some v) (h : s.readAddr 2 m2 = .error f) : jumpWhen test m1 m2 s = raise f s := by
  unfold jumpWhen
  rw [readFirst_of_operand h1, readParam_of_error (f := f) (by rw [State.growAll_readAddr]; exact h)]
  rfl

/-- Everything a jump can do. -/
theorem jumpWhen_cases (test : Word → Bool) (m1 m2 : Mode) (s : State) :
    ∃ u, jumpWhen test m1 m2 s = .next u ∧
      ((∃ v t, s.operand 1 m1 = some v ∧ s.operand 2 m2 = some t ∧
        ((test v = true ∧ 0 ≤ t.toInt ∧ u = s.jumpDone m1 m2 t.toInt.toNat) ∨
          (test v = false ∧ u = s.jumpDone m1 m2 (s.ptr + 3)))) ∨ Faulted s u) := by
  rcases operand_or_error s 1 m1 with ⟨v, hv⟩ | ⟨f, hf, -⟩
  · rcases operand_or_error s 2 m2 with ⟨t, ht⟩ | ⟨f, hf, -⟩
    · have h := jumpWhen_of_operands (test := test) hv ht
      cases hc : test v with
      | false =>
        rw [hc] at h
        exact ⟨_, h, .inl ⟨v, t, hv, ht, .inr ⟨hc, rfl⟩⟩⟩
      | true =>
        rw [hc, if_pos rfl] at h
        by_cases hn : t.toInt < 0
        · rw [if_pos hn] at h
          exact ⟨_, h, .inr ⟨_, rfl, rfl⟩⟩
        · rw [if_neg hn] at h
          exact ⟨_, h, .inl ⟨v, t, hv, ht, .inl ⟨hc, by omega, rfl⟩⟩⟩
    · exact ⟨_, jumpWhen_of_error2 hv hf, .inr ⟨f, readAddr_error_ptr hf, rfl⟩⟩
  · exact ⟨_, jumpWhen_of_error1 hf, .inr ⟨f, readAddr_error_ptr hf, rfl⟩⟩

/-! ## Input and Halt -/

/-- A completed Input of `v` into `t`, `rest` being left in the channel. -/
def State.inputDone (s : State) (t : Nat) (v : Word) (rest : List Word) : State :=
  (((s.growAll [s.ptr, s.ptr + 1, t]).setQ rest).setCell t v).setPtr (s.ptr + 2)

theorem execInput_of_empty (m1 : Mode) (h : s.q = []) : execInput m1 s = .next (s.setSt .pausedWaitingForInput) := by
  unfold execInput State.popFront
  rw [h]

theorem execInput_of_target {v : Word} {rest : List Word} {t : Nat} (hq : s.q = v :: rest)
    (h : s.targetAddr 1 m1 = .ok t) : execInput m1 s = .next (s.inputDone t v rest) := by
  have e0 : s.grow s.ptr = s.growAll [s.ptr] := rfl
  unfold execInput State.popFront transact
  rw [hq]
  simp only []
  rw [e0]
  rw [writeTarget_of_ok (t := t) (by rw [State.growAll_targetAddr]; exact h)]
  simp only [bind, Except.bind, State.growAll_ptr]
  rfl

theorem execInput_of_error {v : Word} {rest : List Word} {f : InstrFault} (hq : s.q = v :: rest)
    (h : s.targetAddr 1 m1 = .error f) : execInput m1 s = raise f s := by
  have e0 : s.grow s.ptr = s.growAll [s.ptr] := rfl
  unfold execInput State.popFront transact
  rw [hq]
  simp only []
  rw [e0]
  rw [writeTarget_of_error (f := f) (by rw [State.growAll_targetAddr]; exact h)]
  rfl

/-- Everything Input can do. -/
theorem execInput_cases (m1 : Mode) (s : State) :
    ∃ u, execInput m1 s = .next u ∧
      ((s.q = [] ∧ u = s.setSt .pausedWaitingForInput) ∨
        (∃ v rest t, s.q = v :: rest ∧ s.targetAddr 1 m1 = .ok t ∧ u = s.inputDone t v rest) ∨
        Faulted s u) := by
  cases hq : s.q with
  | nil => exact ⟨_, execInput_of_empty m1 hq, .inl ⟨rfl, rfl⟩⟩
  | cons v rest =>
    cases ht : s.targetAddr 1 m1 with
    | ok t => exact ⟨_, execInput_of_target hq ht, .inr (.inl ⟨v, rest, t, rfl, rfl, rfl⟩)⟩
    | error f => exact ⟨_, execInput_of_error hq ht, .inr (.inr ⟨f, targetAddr_error_ptr ht, rfl⟩)⟩

/-- Halt does one thing. -/
theorem execHalt_eq (s : State) :
    execHalt s = .next ((s.grow s.ptr).setSt .stopped) := rfl

/-! ## Each instruction as its shape -/

theorem exec_add (m1 m2 m3 : Mode) (s : State) :
    exec (.add m1 m2 m3) s = alu m1 m2 m3 (fun a b => checked s.ptr (a.toInt + b.toInt)) s := rfl

theorem exec_multiply (m1 m2 m3 : Mode) (s : State) :
    exec (.multiply m1 m2 m3) s = alu m1 m2 m3 (fun a b => checked s.ptr (a.toInt * b.toInt)) s := rfl

theorem exec_lessThan (m1 m2 m3 : Mode) (s : State) :
    exec (.lessThan m1 m2 m3) s = alu m1 m2 m3 (fun a b => .ok (truthCell (isLess a b))) s := rfl

theorem exec_equals (m1 m2 m3 : Mode) (s : State) :
    exec (.equals m1 m2 m3) s = alu m1 m2 m3 (fun a b => .ok (truthCell (isEqual a b))) s := rfl

theorem exec_input (m1 m2 m3 : Mode) (s : State) : exec (.input m1 m2 m3) s = execInput m1 s := rfl

theorem exec_output (m1 m2 m3 : Mode) (s : State) :
    exec (.output m1 m2 m3) s =
      readFirst m1 (fun v c => .ok (((c.pushBack v).advance 2).setSt .paused)) s := rfl

theorem exec_jumpIfTrue (m1 m2 m3 : Mode) (s : State) :
    exec (.jumpIfTrue m1 m2 m3) s = jumpWhen isNonzero m1 m2 s := rfl

theorem exec_jumpIfFalse (m1 m2 m3 : Mode) (s : State) :
    exec (.jumpIfFalse m1 m2 m3) s = jumpWhen isZero m1 m2 s := rfl

theorem exec_setRelativeBase (m1 m2 m3 : Mode) (s : State) :
    exec (.setRelativeBase m1 m2 m3) s = execSetRelativeBase m1 s := rfl

theorem exec_halt (m1 m2 m3 : Mode) (s : State) :
    exec (.halt m1 m2 m3) s = .next ((s.grow s.ptr).setSt .stopped) := rfl

/-- SetRelativeBase records the fault of a parameter that does not resolve. -/
theorem execSetRelativeBase_of_error {f : InstrFault} (h : s.readAddr 1 m1 = .error f) :
    execSetRelativeBase m1 s = raise f s :=
  readFirst_of_error h

/-! ## Any instruction -/

/-- The result of Add and Multiply faults at the pointer only. -/
theorem checked_error_ptr (s : State) (g : Word → Word → Int) :
    ∀ a b f, checked s.ptr (g a b) = .error f → f.ptr = s.ptr := by
  intro a b f h
  rw [(checked_eq_error h).2]
  rfl

/-- A comparison never faults. -/
theorem truthCell_error_ptr (s : State) (g : Word → Word → Bool) :
    ∀ a b f, (.ok (truthCell (g a b)) : Except InstrFault Word) = .error f → f.ptr = s.ptr := by
  intro a b f h
  cases h

theorem execAdd_cases (m1 m2 m3 : Mode) (s : State) :
    ∃ u, execAdd m1 m2 m3 s = .next u ∧
      ((∃ a b t r, s.operand 1 m1 = some a ∧ s.operand 2 m2 = some b ∧ s.targetAddr 3 m3 = .ok t ∧
        checked s.ptr (a.toInt + b.toInt) = .ok r ∧ u = s.aluDone m1 m2 t r) ∨ Faulted s u) :=
  alu_cases m1 m2 m3 _ s (checked_error_ptr s _)

theorem execMultiply_cases (m1 m2 m3 : Mode) (s : State) :
    ∃ u, execMultiply m1 m2 m3 s = .next u ∧
      ((∃ a b t r, s.operand 1 m1 = some a ∧ s.operand 2 m2 = some b ∧ s.targetAddr 3 m3 = .ok t ∧
        checked s.ptr (a.toInt * b.toInt) = .ok r ∧ u = s.aluDone m1 m2 t r) ∨ Faulted s u) :=
  alu_cases m1 m2 m3 _ s (checked_error_ptr s _)

theorem execLessThan_cases (m1 m2 m3 : Mode) (s : State) :
    ∃ u, execLessThan m1 m2 m3 s = .next u ∧
      ((∃ a b t r, s.operand 1 m1 = some a ∧ s.operand 2 m2 = some b ∧ s.targetAddr 3 m3 = .ok t ∧
        Except.ok (truthCell (isLess a b)) = (.ok r : Except InstrFault Word) ∧ u = s.aluDone m1 m2 t r) ∨
        Faulted s u) :=
  alu_cases m1 m2 m3 _ s (truthCell_error_ptr s _)

theorem execEquals_cases (m1 m2 m3 : Mode) (s : State) :
    ∃ u, execEquals m1 m2 m3 s = .next u ∧
      ((∃ a b t r, s.operand 1 m1 = some a ∧ s.operand 2 m2 = some b ∧ s.targetAddr 3 m3 = .ok t ∧
        Except.ok (truthCell (isEqual a b)) = (.ok r : Except InstrFault Word) ∧ u = s.aluDone m1 m2 t r) ∨
        Faulted s u) :=
  alu_cases m1 m2 m3 _ s (truthCell_error_ptr s _)

/-- What an instruction that completes has done: its parameters resolved, its result in range, and the state it
leaves. -/
def Completed (i : Instr) (s u : State) : Prop :=
  match i with
  | .add m1 m2 m3 => ∃ a b t r, s.operand 1 m1 = some a ∧ s.operand 2 m2 = some b ∧ s.targetAddr 3 m3 = .ok t ∧
      r.toInt = a.toInt + b.toInt ∧ u = s.aluDone m1 m2 t r
  | .multiply m1 m2 m3 => ∃ a b t r, s.operand 1 m1 = some a ∧ s.operand 2 m2 = some b ∧ s.targetAddr 3 m3 = .ok t ∧
      r.toInt = a.toInt * b.toInt ∧ u = s.aluDone m1 m2 t r
  | .input m1 _ _ => (s.q = [] ∧ u = s.setSt .pausedWaitingForInput) ∨
      ∃ v rest t, s.q = v :: rest ∧ s.targetAddr 1 m1 = .ok t ∧ u = s.inputDone t v rest
  | .output m1 _ _ => ∃ v, s.operand 1 m1 = some v ∧ u = s.outputDone m1 v
  | .jumpIfTrue m1 m2 _ => ∃ c t, s.operand 1 m1 = some c ∧ s.operand 2 m2 = some t ∧
      ((c.toInt ≠ 0 ∧ 0 ≤ t.toInt ∧ u = s.jumpDone m1 m2 t.toInt.toNat) ∨
        (c.toInt = 0 ∧ u = s.jumpDone m1 m2 (s.ptr + 3)))
  | .jumpIfFalse m1 m2 _ => ∃ c t, s.operand 1 m1 = some c ∧ s.operand 2 m2 = some t ∧
      ((c.toInt = 0 ∧ 0 ≤ t.toInt ∧ u = s.jumpDone m1 m2 t.toInt.toNat) ∨
        (c.toInt ≠ 0 ∧ u = s.jumpDone m1 m2 (s.ptr + 3)))
  | .lessThan m1 m2 m3 => ∃ a b t, s.operand 1 m1 = some a ∧ s.operand 2 m2 = some b ∧ s.targetAddr 3 m3 = .ok t ∧
      u = s.aluDone m1 m2 t (truthCell (isLess a b))
  | .equals m1 m2 m3 => ∃ a b t, s.operand 1 m1 = some a ∧ s.operand 2 m2 = some b ∧ s.targetAddr 3 m3 = .ok t ∧
      u = s.aluDone m1 m2 t (truthCell (isEqual a b))
  | .setRelativeBase m1 _ _ => ∃ a r, s.operand 1 m1 = some a ∧ r.toInt = s.rb.toInt + a.toInt ∧
      u = s.rebaseDone m1 r
  | .halt _ _ _ => u = (s.grow s.ptr).setSt .stopped

/-- Every instruction answers a next state, in which it has completed or has recorded a fault. -/
theorem exec_cases (i : Instr) (s : State) : ∃ u, exec i s = .next u ∧ (Completed i s u ∨ Faulted s u) := by
  cases i with
  | add m1 m2 m3 =>
    obtain ⟨u, hu, ⟨a, b, t, r, h1, h2, h3, hr, rfl⟩ | hf⟩ := execAdd_cases m1 m2 m3 s
    · exact ⟨_, hu, .inl ⟨a, b, t, r, h1, h2, h3, (checked_eq_ok hr).2, rfl⟩⟩
    · exact ⟨_, hu, .inr hf⟩
  | multiply m1 m2 m3 =>
    obtain ⟨u, hu, ⟨a, b, t, r, h1, h2, h3, hr, rfl⟩ | hf⟩ := execMultiply_cases m1 m2 m3 s
    · exact ⟨_, hu, .inl ⟨a, b, t, r, h1, h2, h3, (checked_eq_ok hr).2, rfl⟩⟩
    · exact ⟨_, hu, .inr hf⟩
  | input m1 m2 m3 =>
    obtain ⟨u, hu, h | h | hf⟩ := execInput_cases m1 s
    · exact ⟨_, hu, .inl (.inl h)⟩
    · exact ⟨_, hu, .inl (.inr h)⟩
    · exact ⟨_, hu, .inr hf⟩
  | output m1 m2 m3 => exact execOutput_cases m1 s
  | jumpIfTrue m1 m2 m3 =>
    obtain ⟨u, hu, ⟨c, t, h1, h2, h⟩ | hf⟩ := jumpWhen_cases isNonzero m1 m2 s
    · refine ⟨_, hu, .inl ⟨c, t, h1, h2, ?_⟩⟩
      simpa only [isNonzero, decide_eq_true_eq, decide_eq_false_iff_not, ne_eq, not_not] using h
    · exact ⟨_, hu, .inr hf⟩
  | jumpIfFalse m1 m2 m3 =>
    obtain ⟨u, hu, ⟨c, t, h1, h2, h⟩ | hf⟩ := jumpWhen_cases isZero m1 m2 s
    · refine ⟨_, hu, .inl ⟨c, t, h1, h2, ?_⟩⟩
      simpa only [isZero, decide_eq_true_eq, decide_eq_false_iff_not] using h
    · exact ⟨_, hu, .inr hf⟩
  | lessThan m1 m2 m3 =>
    obtain ⟨u, hu, ⟨a, b, t, r, h1, h2, h3, hr, rfl⟩ | hf⟩ := execLessThan_cases m1 m2 m3 s
    · exact ⟨_, hu, .inl ⟨a, b, t, h1, h2, h3, by rw [Except.ok.inj hr]⟩⟩
    · exact ⟨_, hu, .inr hf⟩
  | equals m1 m2 m3 =>
    obtain ⟨u, hu, ⟨a, b, t, r, h1, h2, h3, hr, rfl⟩ | hf⟩ := execEquals_cases m1 m2 m3 s
    · exact ⟨_, hu, .inl ⟨a, b, t, h1, h2, h3, by rw [Except.ok.inj hr]⟩⟩
    · exact ⟨_, hu, .inr hf⟩
  | setRelativeBase m1 m2 m3 => exact execSetRelativeBase_cases m1 s
  | halt m1 m2 m3 => exact ⟨_, execHalt_eq s, .inl rfl⟩

/-- The two ways a memory write of an instruction leaves memory and its length: with one cell written at an address
the length covers, or with no cell written. -/
def MemStep (s u : State) : Prop :=
  s.len ≤ u.len ∧ (u.mem = s.mem ∨ ∃ t v, t < u.len ∧ u.mem = store s.mem t v)

theorem memStep_of_growAll (s : State) (l : List Nat) : MemStep s (s.growAll l) :=
  ⟨s.len_le_growAll l, .inl (State.growAll_mem s l)⟩

/-- A completed ALU instruction writes below the new length. -/
theorem memStep_aluDone (s : State) (m1 m2 : Mode) (t : Nat) (r : Word) : MemStep s (s.aluDone m1 m2 t r) := by
  have e : s.aluAccesses m1 m2 t = (s.ptr :: (s.readAccesses 1 m1 ++ s.readAccesses 2 m2 ++ [s.ptr + 3])) ++ [t] := by
    simp only [State.aluAccesses, List.append_assoc, List.cons_append, List.nil_append]
  refine ⟨s.len_le_growAll _, .inr ⟨t, r, ?_, ?_⟩⟩
  · change t < (s.growAll (s.aluAccesses m1 m2 t)).len
    rw [e, State.growAll_append]
    exact lt_grownLen _ t
  · change store (s.growAll _).mem t r = _
    rw [State.growAll_mem]

theorem memStep_inputDone (s : State) (t : Nat) (v : Word) (rest : List Word) : MemStep s (s.inputDone t v rest) := by
  refine ⟨s.len_le_growAll _, .inr ⟨t, v, ?_, ?_⟩⟩
  · exact lt_grownLen _ t
  · change store (s.growAll _).mem t v = _
    rw [State.growAll_mem]

/-- What memory and its length do keeps the invariant of spec/10_state.md R32. -/
theorem MemStep.inv {s u : State} (h : MemStep s u) (hs : s.Inv) : u.Inv := by
  obtain ⟨hlen, hm | ⟨t, v, ht, hm⟩⟩ := h
  · exact ⟨by rw [hm]; exact hs.1, by rw [hm]; exact boundedBy_mono hlen hs.2⟩
  · exact ⟨by rw [hm]; exact wf_store t v hs.1,
      by rw [hm]; exact boundedBy_store v (boundedBy_mono hlen hs.2) ht⟩

theorem memStep_faulted {s u : State} (h : Faulted s u) : MemStep s u := by
  obtain ⟨f, -, rfl⟩ := h
  exact ⟨Nat.le_refl _, .inl rfl⟩

theorem checked_of_toInt {v : Int} {r : Word} (ptr : Nat) (h : r.toInt = v) : checked ptr v = .ok r := by
  subst h
  rw [checked_of_inI64 ptr (inI64_toInt r), BitVec.ofInt_toInt]

/-- The converse: what `Completed` describes is what the instruction answers. -/
theorem exec_of_completed {i : Instr} {s u : State} (h : Completed i s u) : exec i s = .next u := by
  cases i with
  | add m1 m2 m3 =>
    obtain ⟨a, b, t, r, h1, h2, h3, hr, rfl⟩ := h
    rw [exec_add, alu_of_operands h1 h2 h3, checked_of_toInt s.ptr hr]
  | multiply m1 m2 m3 =>
    obtain ⟨a, b, t, r, h1, h2, h3, hr, rfl⟩ := h
    rw [exec_multiply, alu_of_operands h1 h2 h3, checked_of_toInt s.ptr hr]
  | input m1 m2 m3 =>
    obtain ⟨hq, rfl⟩ | ⟨v, rest, t, hq, ht, rfl⟩ := h
    · exact execInput_of_empty m1 hq
    · exact execInput_of_target hq ht
  | output m1 m2 m3 =>
    obtain ⟨v, hv, rfl⟩ := h
    exact execOutput_of_operand hv
  | jumpIfTrue m1 m2 m3 =>
    obtain ⟨c, t, h1, h2, h⟩ := h
    rw [exec_jumpIfTrue, jumpWhen_of_operands h1 h2]
    obtain ⟨hc, ht, rfl⟩ | ⟨hc, rfl⟩ := h
    · rw [if_pos (show isNonzero c = true from decide_eq_true hc), if_neg (by omega)]
    · rw [if_neg (by simp only [isNonzero, hc, ne_eq, not_true, decide_false, Bool.false_eq_true, not_false_eq_true])]
  | jumpIfFalse m1 m2 m3 =>
    obtain ⟨c, t, h1, h2, h⟩ := h
    rw [exec_jumpIfFalse, jumpWhen_of_operands h1 h2]
    obtain ⟨hc, ht, rfl⟩ | ⟨hc, rfl⟩ := h
    · rw [if_pos (show isZero c = true from decide_eq_true hc), if_neg (by omega)]
    · rw [if_neg (by simp only [isZero, hc, decide_false, Bool.false_eq_true, not_false_eq_true])]
  | lessThan m1 m2 m3 =>
    obtain ⟨a, b, t, h1, h2, h3, rfl⟩ := h
    rw [exec_lessThan, alu_of_operands h1 h2 h3]
  | equals m1 m2 m3 =>
    obtain ⟨a, b, t, h1, h2, h3, rfl⟩ := h
    rw [exec_equals, alu_of_operands h1 h2 h3]
  | setRelativeBase m1 m2 m3 =>
    obtain ⟨a, r, h1, hr, rfl⟩ := h
    rw [exec_setRelativeBase, execSetRelativeBase_of_operand h1, checked_of_toInt s.ptr hr]
  | halt m1 m2 m3 =>
    cases h
    rfl

/-- A completed instruction does no more to memory than `MemStep` says. -/
theorem Completed.memStep {i : Instr} {s u : State} (h : Completed i s u) : MemStep s u := by
  cases i with
  | add m1 m2 m3 =>
    obtain ⟨_, _, t, r, -, -, -, -, rfl⟩ := h
    exact memStep_aluDone s m1 m2 t r
  | multiply m1 m2 m3 =>
    obtain ⟨_, _, t, r, -, -, -, -, rfl⟩ := h
    exact memStep_aluDone s m1 m2 t r
  | input m1 m2 m3 =>
    obtain ⟨-, rfl⟩ | ⟨v, rest, t, -, -, rfl⟩ := h
    · exact ⟨Nat.le_refl _, .inl rfl⟩
    · exact memStep_inputDone s t v rest
  | output m1 m2 m3 =>
    obtain ⟨v, -, rfl⟩ := h
    exact memStep_of_growAll s _
  | jumpIfTrue m1 m2 m3 =>
    obtain ⟨_, _, -, -, ⟨-, -, rfl⟩ | ⟨-, rfl⟩⟩ := h <;> exact memStep_of_growAll s _
  | jumpIfFalse m1 m2 m3 =>
    obtain ⟨_, _, -, -, ⟨-, -, rfl⟩ | ⟨-, rfl⟩⟩ := h <;> exact memStep_of_growAll s _
  | lessThan m1 m2 m3 =>
    obtain ⟨_, _, t, -, -, -, rfl⟩ := h
    exact memStep_aluDone s m1 m2 t _
  | equals m1 m2 m3 =>
    obtain ⟨_, _, t, -, -, -, rfl⟩ := h
    exact memStep_aluDone s m1 m2 t _
  | setRelativeBase m1 m2 m3 =>
    obtain ⟨a, r, -, -, rfl⟩ := h
    exact memStep_of_growAll s _
  | halt m1 m2 m3 =>
    cases h
    exact memStep_of_growAll s [s.ptr]

/-- Every instruction answers a next state, and memory does no more than `MemStep` says. -/
theorem exec_memStep (i : Instr) (s : State) : ∃ u, exec i s = .next u ∧ MemStep s u := by
  obtain ⟨u, hu, h | h⟩ := exec_cases i s
  · exact ⟨u, hu, h.memStep⟩
  · exact ⟨u, hu, memStep_faulted h⟩

/-- An instruction that answers `u` has completed or has recorded a fault. -/
theorem exec_next {i : Instr} {s u : State} (h : exec i s = .next u) : Completed i s u ∨ Faulted s u := by
  obtain ⟨v, hv, hc⟩ := exec_cases i s
  rw [hv] at h
  injection h with h
  exact h ▸ hc

/-! ## The step -/

/-- Everything a step can answer. -/
theorem step_cases (s : State) :
    (∃ f, s.fault = some f ∧ step s = .fault (.faulted f)) ∨
    (s.fault = none ∧ s.st ≠ .running ∧ step s = .fault (.notRunning s.st)) ∨
    (s.fault = none ∧ s.st = .running ∧
      ((∃ i, fetchDecode s = .ok i ∧ step s = exec i s) ∨
       (∃ f, fetchDecode s = .error f ∧ step s = raise f s))) := by
  cases hf : s.fault with
  | some f => exact .inl ⟨f, rfl, by unfold step; rw [hf]⟩
  | none =>
    by_cases hst : s.st = .running
    · refine .inr (.inr ⟨rfl, hst, ?_⟩)
      cases hd : fetchDecode s with
      | ok i => exact .inl ⟨i, rfl, by unfold step; rw [hf, hd]; exact if_pos hst⟩
      | error f => exact .inr ⟨f, rfl, by unfold step; rw [hf, hd]; exact if_pos hst⟩
    · exact .inr (.inl ⟨rfl, hst, by unfold step; rw [hf]; exact if_neg hst⟩)

/-- A rejected word's fault records the pointer. -/
theorem fetchDecode_error_ptr {f : InstrFault} (h : fetchDecode s = .error f) : f.ptr = s.ptr := by
  unfold fetchDecode at h
  cases hd : decode (s.cell s.ptr) with
  | ok i =>
    rw [hd] at h
    cases h
  | error r =>
    rw [hd] at h
    injection h with h
    rw [← h]
    cases r <;> rfl

/-- A step that answers a next state was enabled, and is one instruction or one decode fault. -/
theorem step_next {u : State} (h : step s = .next u) :
    s.fault = none ∧ s.st = .running ∧
      ((∃ i, fetchDecode s = .ok i ∧ exec i s = .next u) ∨
       (∃ f, fetchDecode s = .error f ∧ f.ptr = s.ptr ∧ u = s.setFault (some f))) := by
  rcases step_cases s with ⟨f, -, hs⟩ | ⟨-, -, hs⟩ | ⟨hf, hst, ⟨i, hd, hs⟩ | ⟨f, hd, hs⟩⟩
  · rw [hs] at h
    cases h
  · rw [hs] at h
    cases h
  · exact ⟨hf, hst, .inl ⟨i, hd, by rw [← hs]; exact h⟩⟩
  · rw [hs] at h
    injection h with h
    exact ⟨hf, hst, .inr ⟨f, hd, fetchDecode_error_ptr hd, h.symm⟩⟩

/-- An enabled step answers a next state. -/
theorem step_of_enabled (hf : s.fault = none) (hst : s.st = .running) : ∃ u, step s = .next u := by
  rcases step_cases s with ⟨f, hs, -⟩ | ⟨-, hs, -⟩ | ⟨-, -, ⟨i, -, hs⟩ | ⟨f, -, hs⟩⟩
  · rw [hf] at hs
    cases hs
  · exact absurd hst hs
  · obtain ⟨u, hu, -⟩ := exec_memStep i s
    exact ⟨u, hs.trans hu⟩
  · exact ⟨_, hs⟩

/-- Memory does no more in a step than `MemStep` says. -/
theorem step_memStep {u : State} (h : step s = .next u) : MemStep s u := by
  obtain ⟨-, -, ⟨i, -, hi⟩ | ⟨f, -, hp, rfl⟩⟩ := step_next h
  · obtain ⟨v, hv, hm⟩ := exec_memStep i s
    rw [hv] at hi
    injection hi with hi
    exact hi ▸ hm
  · exact memStep_faulted ⟨f, hp, rfl⟩

end Sys2Proof.Machine
end

