-- ==== Sys2Proof/Laws/Engine.lean ====
section
/-!
SUPPORT. The run contracts: the loop's two cases, what holds of the state a run returns, and that a greater bound
gives the same outcome.
-/
namespace Sys2Proof.Machine

theorem State.enabled_iff (s : State) : s.enabled = true ↔ s.st = .running ∧ s.fault = none := by
  unfold State.enabled
  simp only [Bool.and_eq_true, decide_eq_true_eq]

/-- A state that is not enabled ends the loop. -/
theorem runLoop_of_not_enabled {n : Nat} {s : State} (h : ¬ s.enabled = true) : runLoop n s = some s := by
  cases n <;> exact if_neg h

/-- An enabled state takes its step. -/
theorem runLoop_of_enabled {n : Nat} {s t : State} (h : s.enabled = true) (hs : step s = .next t) :
    runLoop (n + 1) s = runLoop n t := by
  rw [runLoop, if_pos h, hs]

theorem runLoop_zero_of_enabled {s : State} (h : s.enabled = true) : runLoop 0 s = none := if_pos h

theorem enabled_step {s : State} (h : s.enabled = true) : ∃ t, step s = .next t :=
  step_of_enabled ((State.enabled_iff s).mp h).2 ((State.enabled_iff s).mp h).1

/-- What every step keeps, the loop keeps: the induction over a run, once. -/
theorem runLoop_induction {P : State → Prop} (hstep : ∀ s t, P s → step s = .next t → P t) {n : Nat} {s t : State}
    (hs : P s) (h : runLoop n s = some t) : P t ∧ ¬ t.enabled = true := by
  induction n generalizing s with
  | zero =>
    by_cases he : s.enabled = true
    · rw [runLoop_zero_of_enabled he] at h
      cases h
    · rw [runLoop_of_not_enabled he] at h
      injection h with h
      exact h ▸ ⟨hs, he⟩
  | succ n ih =>
    by_cases he : s.enabled = true
    · obtain ⟨u, hu⟩ := enabled_step he
      rw [runLoop_of_enabled he hu] at h
      exact ih (hstep s u hs hu) h
    · rw [runLoop_of_not_enabled he] at h
      injection h with h
      exact h ▸ ⟨hs, he⟩

/-- A loop that has ended ends in the same state with a greater bound. -/
theorem runLoop_mono {n : Nat} {s t : State} (h : runLoop n s = some t) (k : Nat) : runLoop (n + k) s = some t := by
  induction n generalizing s with
  | zero =>
    by_cases he : s.enabled = true
    · rw [runLoop_zero_of_enabled he] at h
      cases h
    · rw [runLoop_of_not_enabled he] at h ⊢
      exact h
  | succ n ih =>
    by_cases he : s.enabled = true
    · obtain ⟨u, hu⟩ := enabled_step he
      rw [runLoop_of_enabled he hu] at h
      rw [Nat.add_right_comm, runLoop_of_enabled he hu]
      exact ih h
    · rw [runLoop_of_not_enabled he] at h ⊢
      exact h

/-- Everything `run` can answer: the instance untouched, or the end of the loop from Running. -/
theorem run_cases {n : Nat} {s t : State} (h : run n s = some t) :
    ((s.fault ≠ none ∨ s.st = .stopped) ∧ t = s) ∨
    (s.fault = none ∧ s.st ≠ .stopped ∧ runLoop n (s.setSt .running) = some t) := by
  unfold run at h
  split at h
  · injection h with h
    exact .inl ⟨‹_›, h.symm⟩
  · rename_i hc
    refine .inr ⟨?_, fun hs => hc (.inr hs), h⟩
    cases hf : s.fault with
    | none => rfl
    | some f => exact absurd (.inl (by rw [hf]; exact Option.some_ne_none f)) hc

theorem run_of_done {s : State} (n : Nat) (h : s.fault ≠ none ∨ s.st = .stopped) : run n s = some s := if_pos h

theorem run_of_live {s : State} (n : Nat) (hf : s.fault = none) (hs : s.st ≠ .stopped) :
    run n s = runLoop n (s.setSt .running) :=
  if_neg fun h => h.elim (fun h => h hf) hs

/-- What every step and the entry of a run keep, a run keeps. -/
theorem run_induction {P : State → Prop} (hstep : ∀ s t, P s → step s = .next t → P t)
    (hentry : ∀ s, P s → P (s.setSt .running)) {n : Nat} {s t : State} (hs : P s) (h : run n s = some t) : P t := by
  rcases run_cases h with ⟨-, rfl⟩ | ⟨-, -, h⟩
  · exact hs
  · exact (runLoop_induction hstep (hentry s hs) h).1

/-- The same for `run_until_halted`. -/
theorem haltLoop_induction {P : State → Prop} (hstep : ∀ s t, P s → step s = .next t → P t)
    (hentry : ∀ s, P s → P (s.setSt .running)) {n k : Nat} {s t : State} (hs : P s)
    (h : haltLoop n k s = some t) : P t ∧ t.mustReturn = true := by
  induction k generalizing s with
  | zero => cases h
  | succ k ih =>
    unfold haltLoop at h
    cases hr : run n s with
    | none =>
      rw [hr] at h
      cases h
    | some u =>
      rw [hr] at h
      simp only at h
      have hu := run_induction hstep hentry hs hr
      split at h
      · injection h with h
        exact h ▸ ⟨hu, ‹_›⟩
      · exact ih hu h

end Sys2Proof.Machine
end

