-- ==== Sys2Proof/Laws/Load.lean ====
section
/-!
SUPPORT. The pieces of an image text: which the splitter gives, and what their values and errors are; and what
placing an image's integers does to memory.
-/
namespace Sys2Proof.Machine

theorem splitCommas_ne_nil (t : List Char) : splitCommas t ≠ [] := by
  cases t with
  | nil => simp [splitCommas]
  | cons c t =>
    unfold splitCommas
    split
    · simp
    · split <;> simp

theorem splitCommas_of_no_comma {t : List Char} (h : ∀ c ∈ t, c ≠ ',') : splitCommas t = [t] := by
  induction t with
  | nil => rfl
  | cons c t ih =>
    unfold splitCommas
    rw [if_neg (h c (by simp)), ih fun c hc => h c (by simp [hc])]

theorem splitCommas_append_comma {t : List Char} (r : List Char) (h : ∀ c ∈ t, c ≠ ',') :
    splitCommas (t ++ ',' :: r) = t :: splitCommas r := by
  induction t with
  | nil => simp [splitCommas]
  | cons c t ih =>
    rw [List.cons_append, splitCommas, if_neg (h c (by simp)), ih fun c hc => h c (by simp [hc])]

/-- No character of a text is lost: it is a comma or stands in a piece. -/
theorem mem_splitCommas {t : List Char} {c : Char} (hc : c ∈ t) : c = ',' ∨ ∃ p ∈ splitCommas t, c ∈ p := by
  by_cases h : c = ','
  · exact .inl h
  right
  induction t with
  | nil => cases hc
  | cons d t ih =>
    obtain ⟨p, ps, hp⟩ := List.exists_cons_of_ne_nil (splitCommas_ne_nil t)
    unfold splitCommas
    rw [hp] at ih ⊢
    rcases List.mem_cons.mp hc with rfl | hc
    · rw [if_neg h]; exact ⟨c :: p, by simp, by simp⟩
    · obtain ⟨x, hx, hcx⟩ := ih hc
      split
      · exact ⟨x, by simp_all, hcx⟩
      · rcases List.mem_cons.mp hx with rfl | hx
        · exact ⟨d :: x, by simp, by simp [hcx]⟩
        · exact ⟨x, by simp [hx], hcx⟩

/-- Every piece of an accepted text is a token. -/
theorem tokenValue_of_piecesValue {ps : List (List Char)} {off : Nat} {vs : List Word}
    (h : piecesValue off ps = .ok vs) : ∀ p ∈ ps, ∃ v, tokenValue p = some v := by
  induction ps generalizing off vs with
  | nil => simp
  | cons p ps ih =>
    unfold piecesValue at h
    split at h; · cases h
    split at h; · cases h
    rename_i v hv _ ws hw
    intro x hx
    rcases List.mem_cons.mp hx with rfl | hx
    exacts [⟨_, hv⟩, ih hw x hx]

theorem loadError_of_piecesValue {ps : List (List Char)} {off : Nat} {e : HostError}
    (h : piecesValue off ps = .error e) : ∃ k, e = .loadError k := by
  induction ps generalizing off with
  | nil => cases h
  | cons p ps ih =>
    unfold piecesValue at h
    split at h
    · cases h; exact ⟨_, rfl⟩
    · split at h
      · rename_i hh; cases h; exact ih hh
      · cases h

/-- Placing values above everything listed keeps the canonical form, leaves every cell below, and puts each value
into its cell. -/
theorem placeFrom_spec (vs : List Word) {a : Nat} {m : Memory} (hw : m.wf = true) (hb : boundedBy a m = true) :
    Memory.wf (placeFrom a vs m) = true ∧ boundedBy (a + vs.length) (placeFrom a vs m) = true ∧
      (∀ x, x < a → lookup (placeFrom a vs m) x = lookup m x) ∧
      ∀ (i : Nat) (v : Word), vs[i]? = some v → lookup (placeFrom a vs m) (a + i) = v := by
  induction vs generalizing a m with
  | nil => exact ⟨hw, hb, fun _ _ => rfl, fun i v h => by simp at h⟩
  | cons v vs ih =>
    obtain ⟨h1, h2, h3, h4⟩ := ih (wf_store a v hw)
      (boundedBy_store v (boundedBy_mono (Nat.le_succ a) hb) (Nat.lt_succ_self a))
    refine ⟨h1, ?_, fun x hx => ?_, fun i w hi => ?_⟩
    · rw [List.length_cons, Nat.add_comm vs.length, ← Nat.add_assoc]
      exact h2
    · rw [placeFrom, h3 x (by omega), lookup_store_ne _ _ (by omega)]
    · cases i with
      | zero =>
        cases hi
        rw [Nat.add_zero, placeFrom, h3 a (Nat.lt_succ_self a), lookup_store_self hw]
      | succ i =>
        rw [placeFrom, Nat.add_comm i, ← Nat.add_assoc]
        exact h4 i w hi

theorem inv_ofImage (vs : List Word) : (State.ofImage vs).Inv := by
  obtain ⟨h1, h2, -, -⟩ := placeFrom_spec vs (a := Config.resetVector) (m := []) rfl rfl
  rw [Config.resetVector, Nat.zero_add] at h2
  exact ⟨h1, h2⟩

end Sys2Proof.Machine
end

