-- ==== Sys2Proof/Laws/PerInstr.lean ====
section
/-!
SUPPORT. The family `Encoding` of statements per instruction: the fields read back from the number of its word.
-/
namespace Sys2Proof.Laws.Encoding

/-- The number of an instruction has no digit above its mode digits, its last two digits are its opcode, and the
mode decoder reads its three modes (spec/30_encoding.md R61, R62, R67, R73). -/
def Statement (i : Instr) : Prop :=
  encodeNumber i < Config.wordBound ∧ opcodeField (encodeNumber i) = opcodeNumber i.opcode ∧
    decodeModes (encodeNumber i) = .ok (instrModes i)

theorem add (m1 m2 m3 : Mode) : Statement (.add m1 m2 m3) := by
  cases m1 <;> cases m2 <;> cases m3 <;> exact ⟨by decide, rfl, rfl⟩

theorem multiply (m1 m2 m3 : Mode) : Statement (.multiply m1 m2 m3) := by
  cases m1 <;> cases m2 <;> cases m3 <;> exact ⟨by decide, rfl, rfl⟩

theorem input (m1 m2 m3 : Mode) : Statement (.input m1 m2 m3) := by
  cases m1 <;> cases m2 <;> cases m3 <;> exact ⟨by decide, rfl, rfl⟩

theorem output (m1 m2 m3 : Mode) : Statement (.output m1 m2 m3) := by
  cases m1 <;> cases m2 <;> cases m3 <;> exact ⟨by decide, rfl, rfl⟩

theorem jumpIfTrue (m1 m2 m3 : Mode) : Statement (.jumpIfTrue m1 m2 m3) := by
  cases m1 <;> cases m2 <;> cases m3 <;> exact ⟨by decide, rfl, rfl⟩

theorem jumpIfFalse (m1 m2 m3 : Mode) : Statement (.jumpIfFalse m1 m2 m3) := by
  cases m1 <;> cases m2 <;> cases m3 <;> exact ⟨by decide, rfl, rfl⟩

theorem lessThan (m1 m2 m3 : Mode) : Statement (.lessThan m1 m2 m3) := by
  cases m1 <;> cases m2 <;> cases m3 <;> exact ⟨by decide, rfl, rfl⟩

theorem equals (m1 m2 m3 : Mode) : Statement (.equals m1 m2 m3) := by
  cases m1 <;> cases m2 <;> cases m3 <;> exact ⟨by decide, rfl, rfl⟩

theorem setRelativeBase (m1 m2 m3 : Mode) : Statement (.setRelativeBase m1 m2 m3) := by
  cases m1 <;> cases m2 <;> cases m3 <;> exact ⟨by decide, rfl, rfl⟩

theorem halt (m1 m2 m3 : Mode) : Statement (.halt m1 m2 m3) := by
  cases m1 <;> cases m2 <;> cases m3 <;> exact ⟨by decide, rfl, rfl⟩

end Sys2Proof.Laws.Encoding
end

