-- ==== Sys2Proof/Laws/Token.lean ====
section
/-!
SUPPORT. The token parser against the grammar: what `signedValue` after `trimSpace` and `tokenValue` answer is `IsToken`.
-/
namespace Sys2Proof.Machine

/-- The base-10 digits. -/
abbrev digitChars : List Char := ['0', '1', '2', '3', '4', '5', '6', '7', '8', '9']

theorem digitValue_of_mem {c : Char} (h : c ∈ digitChars) : digitValue c = some (c.toNat - 48) := by
  simp only [digitChars, List.mem_cons, List.not_mem_nil, or_false] at h
  rcases h with rfl | rfl | rfl | rfl | rfl | rfl | rfl | rfl | rfl | rfl <;> rfl

theorem mem_of_digitValue {c : Char} {d : Nat} (h : digitValue c = some d) : c ∈ digitChars := by
  unfold digitValue at h
  split at h
  · obtain ⟨k, hk, h1, h2⟩ : ∃ k, c.toNat = k ∧ 48 ≤ k ∧ k ≤ 57 := ⟨_, rfl, ‹_›⟩
    rw [← Char.ofNat_toNat c, hk]
    clear * - h1 h2
    interval_cases k <;> decide
  · cases h

theorem digitsFrom_of_digits {l : List Char} (h : ∀ c ∈ l, c ∈ digitChars) (acc : Nat) :
    digitsFrom acc l = some (l.foldl (fun n c => n * 10 + (c.toNat - 48)) acc) := by
  induction l generalizing acc with
  | nil => rfl
  | cons c l ih =>
    simp only [digitsFrom, digitValue_of_mem (h c (by simp))]
    exact ih (fun c hc => h c (by simp [hc])) _

theorem digits_of_digitsFrom {l : List Char} {acc n : Nat} (h : digitsFrom acc l = some n) :
    ∀ c ∈ l, c ∈ digitChars := by
  induction l generalizing acc with
  | nil => simp
  | cons c l ih =>
    unfold digitsFrom at h
    split at h
    · cases h
    · rename_i d hd
      intro x hx
      rcases List.mem_cons.mp hx with rfl | hx
      exacts [mem_of_digitValue hd, ih h x hx]

theorem digitsValue_eq_some {l : List Char} {n : Nat} :
    digitsValue l = some n ↔ l ≠ [] ∧ (∀ c ∈ l, c ∈ digitChars) ∧ n = decimalValue l := by
  unfold digitsValue
  constructor
  · intro h
    split at h
    · cases h
    · have hd := digits_of_digitsFrom h
      rw [digitsFrom_of_digits hd] at h
      exact ⟨‹_›, hd, (Option.some.inj h).symm⟩
  · rintro ⟨h1, h2, rfl⟩
    rw [if_neg h1, digitsFrom_of_digits h2]
    rfl

theorem digit_ne_sign {c : Char} (h : c ∈ digitChars) : c ≠ '-' ∧ c ≠ '+' ∧ isSpaceChar c = false := by
  simp only [digitChars, List.mem_cons, List.not_mem_nil, or_false] at h
  rcases h with rfl | rfl | rfl | rfl | rfl | rfl | rfl | rfl | rfl | rfl <;> decide

/-- `["+" | "-"] digit+` and its number. -/
theorem signedValue_eq_some {l : List Char} {v : Int} :
    signedValue l = some v ↔ ∃ sign ds, l = sign ++ ds ∧ ds ≠ [] ∧ (∀ c ∈ ds, c ∈ digitChars) ∧
      (sign ∈ [[], ['+']] ∧ v = decimalValue ds ∨ sign = ['-'] ∧ v = -decimalValue ds) := by
  constructor
  · intro h
    unfold signedValue at h
    split at h
    · cases h
    rename_i c ds
    split at h
    · rename_i hc
      obtain ⟨n, hn, rfl⟩ := Option.map_eq_some_iff.mp h
      obtain ⟨h1, h2, rfl⟩ := digitsValue_eq_some.mp hn
      exact ⟨['-'], ds, by rw [hc]; rfl, h1, h2, .inr ⟨rfl, rfl⟩⟩
    split at h
    · rename_i hc
      obtain ⟨n, hn, rfl⟩ := Option.map_eq_some_iff.mp h
      obtain ⟨h1, h2, rfl⟩ := digitsValue_eq_some.mp hn
      exact ⟨['+'], ds, by rw [hc]; rfl, h1, h2, .inl ⟨by simp, rfl⟩⟩
    · obtain ⟨n, hn, rfl⟩ := Option.map_eq_some_iff.mp h
      obtain ⟨h1, h2, rfl⟩ := digitsValue_eq_some.mp hn
      exact ⟨[], c :: ds, rfl, h1, h2, .inl ⟨by simp, rfl⟩⟩
  · rintro ⟨sign, ds, rfl, h1, h2, ⟨hs, rfl⟩ | ⟨rfl, rfl⟩⟩
    · have hv := digitsValue_eq_some.mpr ⟨h1, h2, rfl⟩
      simp only [List.mem_cons, List.not_mem_nil, or_false] at hs
      rcases hs with rfl | rfl
      · obtain ⟨c, l, rfl⟩ := List.exists_cons_of_ne_nil h1
        have hc := digit_ne_sign (h2 c (by simp))
        simp only [List.nil_append, signedValue, hc.1, hc.2.1, if_false, hv, Option.map_some]
      · show Option.map _ (digitsValue ds) = _
        rw [hv]
        rfl
    · show Option.map _ (digitsValue ds) = _
      rw [digitsValue_eq_some.mpr ⟨h1, h2, rfl⟩]
      rfl

theorem isSpaceChar_iff (c : Char) : isSpaceChar c = true ↔ c ∈ [' ', '\t', '\r', '\n'] := by
  simp [isSpaceChar, or_assoc]

/-- Trimming takes white space off both ends and nothing else. -/
theorem trimSpace_parts (t : List Char) :
    ∃ before after, t = before ++ trimSpace t ++ after ∧ ∀ c ∈ before ++ after, isSpaceChar c = true := by
  refine ⟨t.takeWhile isSpaceChar, ((t.dropWhile isSpaceChar).reverse.takeWhile isSpaceChar).reverse, ?_, ?_⟩
  · rw [trimSpace, List.append_assoc, ← List.reverse_append, List.takeWhile_append_dropWhile, List.reverse_reverse,
      List.takeWhile_append_dropWhile]
  · intro c hc
    rcases List.mem_append.mp hc with h | h
    · exact List.mem_takeWhile_imp h
    · exact List.mem_takeWhile_imp (List.mem_reverse.mp h)

theorem dropWhile_space {b r : List Char} (hb : ∀ c ∈ b, isSpaceChar c = true)
    (hr : ∃ c l, r = c :: l ∧ isSpaceChar c = false) : (b ++ r).dropWhile isSpaceChar = r := by
  induction b with
  | nil =>
    obtain ⟨c, l, rfl, h⟩ := hr
    simp [h]
  | cons c b ih =>
    rw [List.cons_append, List.dropWhile_cons_of_pos (hb c (by simp))]
    exact ih fun c hc => hb c (by simp [hc])

/-- Trimming keeps what begins and ends with a character other than white space. -/
theorem trimSpace_between {b t a : List Char} (hs : ∀ c ∈ b ++ a, isSpaceChar c = true)
    (hfirst : ∃ c l, t = c :: l ∧ isSpaceChar c = false) (hlast : ∃ c l, t.reverse = c :: l ∧ isSpaceChar c = false) :
    trimSpace (b ++ (t ++ a)) = t := by
  have hta : ∃ c l, t ++ a = c :: l ∧ isSpaceChar c = false := by
    obtain ⟨c, l, h, hc⟩ := hfirst
    exact ⟨c, l ++ a, by rw [h]; rfl, hc⟩
  rw [trimSpace, dropWhile_space (fun c hc => hs c (by simp [hc])) hta, List.reverse_append,
    dropWhile_space (fun c hc => hs c (by simp_all)) hlast, List.reverse_reverse]

/-- The number of a piece is what the grammar says. -/
theorem signedValue_trimSpace_eq_some {p : List Char} {v : Int} :
    signedValue (trimSpace p) = some v ↔ IsToken p v := by
  constructor
  · intro h
    obtain ⟨sign, ds, h1, h2, h3, h4⟩ := signedValue_eq_some.mp h
    obtain ⟨b, a, hp, hs⟩ := trimSpace_parts p
    rw [h1] at hp
    exact ⟨b, sign, ds, a, by simpa using hp, fun c hc => (isSpaceChar_iff c).mp (hs c hc), h2, h3, h4⟩
  · rintro ⟨b, sign, ds, a, rfl, hs, h2, h3, h4⟩
    have hfirst : ∃ c l, sign ++ ds = c :: l ∧ isSpaceChar c = false := by
      obtain ⟨c, l, rfl⟩ := List.exists_cons_of_ne_nil h2
      rcases h4 with ⟨h, -⟩ | ⟨rfl, -⟩
      · simp only [List.mem_cons, List.not_mem_nil, or_false] at h
        rcases h with rfl | rfl
        · exact ⟨c, l, rfl, (digit_ne_sign (h3 c (by simp))).2.2⟩
        · exact ⟨'+', c :: l, rfl, rfl⟩
      · exact ⟨'-', c :: l, rfl, rfl⟩
    have hlast : ∃ c l, (sign ++ ds).reverse = c :: l ∧ isSpaceChar c = false := by
      obtain ⟨c, l, hr⟩ := List.exists_cons_of_ne_nil (show ds.reverse ≠ [] by simpa using h2)
      refine ⟨c, l ++ sign.reverse, by rw [List.reverse_append, hr]; rfl, (digit_ne_sign (h3 c ?_)).2.2⟩
      rw [← List.mem_reverse, hr]
      simp
    rw [show b ++ sign ++ ds ++ a = b ++ ((sign ++ ds) ++ a) by simp,
      trimSpace_between (fun c hc => (isSpaceChar_iff c).mpr (hs c hc)) hfirst hlast]
    exact signedValue_eq_some.mpr ⟨sign, ds, rfl, h2, h3, h4⟩

/-- The cell of a piece is the grammar's number, if it lies in `i64`. -/
theorem tokenValue_eq_some {p : List Char} {v : Word} : tokenValue p = some v ↔ IsToken p v.toInt := by
  rw [← signedValue_trimSpace_eq_some, tokenValue]
  constructor
  · intro h
    split at h
    · cases h
    rename_i z hz
    split at h
    · cases h
      rw [toInt_ofInt_of_inI64 ‹_›]
      exact hz
    · cases h
  · intro h
    simp only [h, if_pos (inI64_toInt v), BitVec.ofInt_toInt]

end Sys2Proof.Machine
end

