-- ==== Sys2Proof/Tests/Slice0.lean ====
section
/-!
SUPPORT. The model's own tests. Expected results are the vectors of spec/95_test_vectors.md, derived there from the
rules; the comment before a test names them. A theorem `witness_<Obligation>` shows a state and operands that meet
the hypotheses of that obligation, clause by clause.
-/
namespace Sys2Proof.Tests

open Sys2Proof.Machine

/-- A run just entered on an image, with a base and a channel. -/
def started (vs : List Word) (rb : Word) (q : List Word) : State :=
  (((State.ofImage vs).setRb rb).setQ q).setSt .running

/-- The next state of an outcome. -/
def nextOf : Host.Outcome State Fault Refusal → Option State
  | .next s => some s
  | .fault _ => none
  | .refused _ => none

/-- What a step does to pointer, execution State and fault record. -/
def after (s : State) : Option (Nat × ExecState × Option InstrFault) :=
  (nextOf (step s)).map fun t => (t.ptr, t.st, t.fault)

/-- The cell `a` after a step. -/
def cellAfter (a : Nat) (s : State) : Option Word := (nextOf (step s)).map fun t => t.cell a

/-- The channel after a step. -/
def channelAfter (s : State) : Option (List Word) := (nextOf (step s)).map State.q

/-- The relative base after a step. -/
def baseAfter (s : State) : Option Word := (nextOf (step s)).map State.rb

/-- A step that records `f` and changes nothing else. -/
def FaultsWith (s : State) (f : InstrFault) : Prop := nextOf (step s) = some (s.setFault (some f))

theorem next_of_nextOf {o : Host.Outcome State Fault Refusal} {t : State} (h : nextOf o = some t) : o = .next t := by
  cases o <;> cases h
  rfl

/-! ## Well-formedness -/

-- R69: an Immediate write parameter is ill-formed, parameter 3 of the ALU instructions and parameter 1 of Input.
theorem test_wf_refuses_immediate_write : ∀ m1 ∈ [Mode.position, .immediate, .relative],
    (Instr.add m1 .position .immediate).wf = false ∧ (Instr.multiply m1 .position .immediate).wf = false ∧
      (Instr.lessThan m1 .position .immediate).wf = false ∧ (Instr.equals m1 .position .immediate).wf = false ∧
      (Instr.input .immediate m1 .position).wf = false := by decide

-- R68, R69: an unused mode digit 1 is no write parameter.
theorem test_wf_accepts_unused_immediate :
    (Instr.input .position .position .immediate).wf = true ∧ (Instr.output .immediate .immediate .immediate).wf = true ∧
      (Instr.halt .immediate .immediate .immediate).wf = true := by decide

/-! ## Decoding: the words of 2.1 -/

theorem test_decode_alu :
    decode 1 = .ok (.add .position .position .position) ∧ decode 1101 = .ok (.add .immediate .immediate .position) ∧
    decode 1001 = .ok (.add .position .immediate .position) ∧ decode 22201 = .ok (.add .relative .relative .relative) ∧
    decode 21101 = .ok (.add .immediate .immediate .relative) ∧
    decode 2 = .ok (.multiply .position .position .position) ∧
    decode 7 = .ok (.lessThan .position .position .position) ∧
    decode 8 = .ok (.equals .position .position .position) := by decide

theorem test_decode_io :
    decode 3 = .ok (.input .position .position .position) ∧ decode 10003 = .ok (.input .position .position .immediate) ∧
    decode 20003 = .ok (.input .position .position .relative) ∧
    decode 4 = .ok (.output .position .position .position) ∧
    decode 104 = .ok (.output .immediate .position .position) ∧
    decode 204 = .ok (.output .relative .position .position) := by decide

theorem test_decode_control :
    decode 5 = .ok (.jumpIfTrue .position .position .position) ∧
    decode 1105 = .ok (.jumpIfTrue .immediate .immediate .position) ∧
    decode 6 = .ok (.jumpIfFalse .position .position .position) ∧
    decode 9 = .ok (.setRelativeBase .position .position .position) ∧
    decode 109 = .ok (.setRelativeBase .immediate .position .position) ∧
    decode 99 = .ok (.halt .position .position .position) ∧
    decode 199 = .ok (.halt .immediate .position .position) := by decide

theorem test_decode_rejects_opcode : [0, 10, 98, 100, 100300].map decode = List.replicate 5 (.error .invalidOpcode) := by
  decide

theorem test_decode_rejects_range :
    decode (-1) = .error .negativeInstructionWord ∧ decode (-99) = .error .negativeInstructionWord ∧
    [100001, 100099, 100301].map decode = List.replicate 3 (.error .excessModeDigits) := by decide

theorem test_decode_rejects_modes :
    [301, 9999, 10301].map decode = List.replicate 3 (.error (.invalidParameterMode 1)) ∧
    [3001, 4004].map decode = List.replicate 2 (.error (.invalidParameterMode 2)) ∧
    [30001, 30099, 30103].map decode = List.replicate 3 (.error (.invalidParameterMode 3)) ∧
    decode 10001 = .error (.immediateWrite 3) ∧ decode 11101 = .error (.immediateWrite 3) ∧
    decode 103 = .error (.immediateWrite 1) := by decide

-- R73 and R74 by hand: the words of 30_encoding.md section 7 and of P1 to P5.
theorem test_assemble :
    assemble (.add (.rel 3) (.rel 4) (.rel 5)) = some [22201, 3, 4, 5] ∧ assemble (.inp (.pos 20)) = some [3, 20] ∧
    assemble (.jnz (.pos 20) (.imm 2)) = some [1005, 20, 2] ∧ assemble (.arb (.imm 4)) = some [109, 4] ∧
    assemble .hlt = some [99] ∧ assemble .nop = some [1105, 0, 0] ∧ assemble (.inp (.imm 1)) = none := by decide

-- The host's two entries: an Output word with its operand bits zero outputs cell 0, its own word.
theorem test_withFetchWord :
    decodeTableWord 8 4 = some (.output .position .position .position) ∧
    channelAfter (State.reset.withFetchWord 8 4) = some [4] := by decide

/-! ## The ALU: A1 to A14 -/

-- A1, A5
theorem test_add :
    cellAfter 7 (started [1, 5, 6, 7, 99, 10, 20, 0] 0 []) = some 30 ∧
    after (started [1, 5, 6, 7, 99, 10, 20, 0] 0 []) = some (4, .running, none) ∧
    cellAfter 0 (started [1101, 2, 3, 0] 0 []) = some 5 := by decide

-- A2, A6, A8
theorem test_add_modes :
    cellAfter 7 (started [22201, 1, 2, 3, 99, 10, 20, 0] 4 []) = some 30 ∧
    FaultsWith (started [1, -1, 0, 0] 0 []) (.negativeAddress 0 1 (-1)) ∧
    FaultsWith (started [1101, 1, 1, -1] 0 []) (.negativeAddress 0 3 (-1)) := by
  unfold FaultsWith; decide

-- A9, A11, A12
theorem test_multiply :
    cellAfter 5 (started [1102, -4294967296, 2147483648, 5, 99, 0] 0 []) = some (-9223372036854775808) ∧
    FaultsWith (started [1102, -1, -9223372036854775808, 5, 99, 0] 0 []) (.arithmeticOverflow 0 (2 ^ 63)) ∧
    cellAfter 5 (started [1102, 0, -9223372036854775808, 5, 99, 0] 0 []) = some 0 := by
  unfold FaultsWith; decide

-- A13, E1
theorem test_lessThan :
    cellAfter 5 (started [1107, -9223372036854775808, 9223372036854775807, 5, 99, 7] 0 []) = some 1 ∧
    cellAfter 5 (started [1107, 3, 3, 5, 99, 7] 0 []) = some 0 := by decide

-- E1
theorem test_equals :
    cellAfter 5 (started [1108, 8, 8, 5, 99, 7] 0 []) = some 1 ∧
    cellAfter 5 (started [1108, 8, -8, 5, 99, 7] 0 []) = some 0 ∧
    cellAfter 5 (started [8, 0, 0, 5, 99, 7] 0 []) = some 1 := by decide

/-! ## I/O: I1 to I7 -/

-- I1, I3
theorem test_input :
    cellAfter 3 (started [3, 3, 99, 0] 0 [7, 8]) = some 7 ∧ channelAfter (started [3, 3, 99, 0] 0 [7, 8]) = some [8] ∧
    cellAfter 3 (started [203, -1, 99, 0] 4 [42]) = some 42 := by decide

-- I2, I4
theorem test_input_stops :
    nextOf (step (started [3, 3, 99, 0] 0 [])) = some ((started [3, 3, 99, 0] 0 []).setSt .pausedWaitingForInput) ∧
    FaultsWith (started [3, -2, 99] 0 [1]) (.negativeAddress 0 1 (-2)) := by
  unfold FaultsWith; decide

-- I5, I6, I7
theorem test_output :
    channelAfter (started [4, 3, 99, -17] 0 []) = some [-17] ∧
    after (started [4, 3, 99, -17] 0 []) = some (2, .paused, none) ∧
    channelAfter (started [104, -17, 99] 0 [5]) = some [5, -17] ∧
    channelAfter (started [204, 1, 99, 55] 2 []) = some [55] := by decide

/-! ## Control: J1 to J9, B1 to B5, H1 and H2 -/

-- J1, J2, J4, J5
theorem test_jumpIfTrue :
    after (started [1105, -3, 9] 0 []) = some (9, .running, none) ∧
    after (started [1105, 0, 9] 0 []) = some (3, .running, none) ∧
    after (started [1105, 0, -1] 0 []) = some (3, .running, none) ∧
    after (started [5, 3, 4, 7, 2] 0 []) = some (2, .running, none) := by decide

-- J3, and J9: the fetch at 100 faults and the length stays 3
theorem test_jump_targets :
    FaultsWith (started [1105, 1, -1] 0 []) (.negativeAddress 0 2 (-1)) ∧
    FaultsWith ((started [1105, 1, 100] 0 []).setPtr 100) (.invalidOpcode 100 0) := by
  unfold FaultsWith; decide

-- J6, J7, J8
theorem test_jumpIfFalse :
    after (started [1106, 0, 4] 0 []) = some (4, .running, none) ∧
    after (started [1106, 5, 4] 0 []) = some (3, .running, none) ∧
    after (started [1106, -1, 4] 0 []) = some (3, .running, none) := by decide

-- B1 to B5
theorem test_setRelativeBase :
    baseAfter (started [109, 4, 99] 0 []) = some 4 ∧ baseAfter (started [109, -10, 99] 3 []) = some (-7) ∧
    baseAfter (started [9, 3, 99, -7] 1 []) = some (-6) ∧ baseAfter (started [209, 1, 99, 6] 2 []) = some 8 ∧
    FaultsWith (started [109, 1, 99] 9223372036854775807 []) (.arithmeticOverflow 0 (2 ^ 63)) := by
  unfold FaultsWith; decide

-- H1, H2
theorem test_halt :
    after (started [99] 0 []) = some (0, .stopped, none) ∧ after (started [22299] 0 []) = some (0, .stopped, none) := by
  decide

/-! ## Growth, host and load: 2.2, 2.6, 2.7 -/

-- 2.2
theorem test_growth :
    grownLen 5 0 = 5 ∧ grownLen 5 4 = 5 ∧ grownLen 5 5 = 10 ∧ grownLen 10 6 = 10 ∧ grownLen 10 20 = 40 ∧
    grownLen 40 15 = 40 ∧ grownLen 40 100 = 200 ∧ grownLen 0 0 = 1 := by decide

-- S3, S8, S13
theorem test_host :
    (run 5 (State.ofImage [104, 5, 99])).map (fun t => (t.st, t.ptr, t.q)) = some (.paused, 2, [5]) ∧
    (run 5 (State.ofImage [3, 0, 99])).map (fun t => (t.st, t.ptr)) = some (.pausedWaitingForInput, 0) ∧
    (hostMemWrite 10 5 (State.ofImage [1, 2])).toOption.map (fun t => (t.cell 10, t.len)) = some (5, 20) := by decide

-- 2.7: accepted texts
theorem test_load :
    load ['1', ',', '2', ',', '3'] = .ok (State.ofImage [1, 2, 3]) ∧
    load [' ', '1', ' ', ',', ' ', '-', '2', ' ', ',', '+', '3', '\n'] = .ok (State.ofImage [1, -2, 3]) := by decide

-- 2.7: refused texts
theorem test_load_refuses :
    load ['1', ',', ',', '2'] = .error (.loadError 2) ∧ load ['1', ' ', '2'] = .error (.loadError 0) ∧
    load ['0', 'x', '1', '0'] = .error (.loadError 0) ∧
    tokenValue ['9', '2', '2', '3', '3', '7', '2', '0', '3', '6', '8', '5', '4', '7', '7', '5', '8', '0', '8'] = none := by
  decide

-- The numeric codes of 10_state.md R26 and 60_exceptions.md R130.
theorem test_codes :
    [ExecState.initialized, .running, .paused, .pausedWaitingForInput, .stopped].map ExecState.code = [0, 1, 2, 3, 4] ∧
    [InstrFault.invalidOpcode 0 0, .invalidParameterMode 0 0 1, .negativeInstructionWord 0 0, .excessModeDigits 0 0,
      .immediateWrite 0 0 1, .negativeAddress 0 1 (-1), .arithmeticOverflow 0 0].map InstrFault.code =
      [1, 2, 4, 5, 6, 7, 8] ∧
    [HostError.emptyChannel, .loadError 0, .hostRefused .clone].map HostError.code = [3, 9, 10] := by decide

/-! ## Witnesses: encoding -/

theorem witness_DecodeUndoesEncode : (Instr.add .relative .immediate .relative).wf = true := by decide

theorem witness_EncodeUndoesDecode : decode 21101 = .ok (.add .immediate .immediate .relative) := by decide

theorem witness_OpcodeIsTheLastTwoDigits :
    0 ≤ (22299 : Word).toInt ∧ decode 22299 = .ok (.halt .relative .relative .relative) ∧
    0 ≤ (98 : Word).toInt ∧ (98 : Word).toInt % 100 ∉ [1, 2, 3, 4, 5, 6, 7, 8, 9, 99] ∧
    (started [98] 0 []).fault = none ∧ (started [98] 0 []).st = .running ∧ (started [98] 0 []).cell 0 = 98 := by decide

-- One word at the edge of each clause, the accepting one last.
theorem witness_DecodeChecksInOrder :
    decode (-1) = .error .negativeInstructionWord ∧ decode 0 = .error .invalidOpcode ∧
    decode 100001 = .error .excessModeDigits ∧ decode 302 = .error (.invalidParameterMode 1) ∧
    decode 3007 = .error (.invalidParameterMode 2) ∧ decode 30008 = .error (.invalidParameterMode 3) ∧
    decode 10002 = .error (.immediateWrite 3) ∧ decode 103 = .error (.immediateWrite 1) ∧
    decode 22203 = .ok (.input .relative .relative .relative) := by decide

theorem witness_AssembledLinesDecode :
    assemble (.mov (.pos 20) (.rel 3)) = some [21001, 20, 0, 3] ∧ decode 21001 = .ok (.add .position .immediate .relative) ∧
    assemble (.mul (.imm 1) (.imm 2) (.imm 3)) = none := by decide

/-! ## Witnesses: memory -/

/-- A state with cell 0 listed and length 2. -/
abbrev twoCells : State := State.ofImage [7, 0]

theorem witness_memory_statements :
    twoCells.Inv ∧ 1 < twoCells.len ∧ twoCells.len ≤ 2 ∧ (3 : Nat) ≠ 2 := by decide

theorem witness_StepKeepsMemoryInvariant :
    ∃ t, (started [1101, 2, 3, 9] 0 []).Inv ∧ step (started [1101, 2, 3, 9] 0 []) = .next t :=
  ⟨_, by decide, rfl⟩

theorem witness_LenNeverDecreases :
    ∃ t u, step (started [1101, 2, 3, 9] 0 []) = .next t ∧ hostOp 0 (.memRead 2) twoCells = some (.value 0, u) :=
  ⟨_, _, rfl, rfl⟩

/-! ## Witnesses: operands -/

-- The clauses of the two mode statements, at 0, -1 and 2^63.
theorem witness_mode_statements :
    (started [4, -1] 0 []).paramWord 1 = -1 ∧ (started [4, 0] 0 []).paramWord 1 = 0 ∧
    (started [204, -1] 1 []).operand 1 .relative = some 204 ∧
    (started [204, -2] 1 []).readAddr 1 .relative = .error (.negativeAddress 0 1 (-1)) ∧
    (started [204, 1] 9223372036854775807 []).readAddr 1 .relative = .error (.arithmeticOverflow 0 (2 ^ 63)) := by
  decide

/-! ## Witnesses: instructions -/

/-- An ALU instruction's cells with operands 6 and 7 and target 5. -/
abbrev aluState : State := started [1101, 6, 7, 5, 99] 0 []

theorem witness_alu_completes :
    aluState.operand 1 .immediate = some 6 ∧ aluState.operand 2 .immediate = some 7 ∧
    aluState.targetAddr 3 .position = .ok 5 ∧ -2 ^ 63 ≤ (6 : Word).toInt * (7 : Word).toInt ∧
    (6 : Word).toInt + (7 : Word).toInt < 2 ^ 63 ∧ (6 : Word).toInt * (7 : Word).toInt < 2 ^ 63 := by decide

/-- The same with operands 2^62 and 2^62 and the base at its maximum. -/
abbrev overflowState : State := started [1101, 4611686018427387904, 4611686018427387904, 5, 99] 9223372036854775807 []

theorem witness_ArithmeticOverflowCommitsNothing :
    overflowState.operand 1 .immediate = some 4611686018427387904 ∧
    overflowState.operand 2 .immediate = some 4611686018427387904 ∧ overflowState.targetAddr 3 .position = .ok 5 ∧
    2 ^ 63 ≤ (4611686018427387904 : Word).toInt + (4611686018427387904 : Word).toInt ∧
    2 ^ 63 ≤ (4611686018427387904 : Word).toInt * (4611686018427387904 : Word).toInt ∧
    2 ^ 63 ≤ overflowState.rb.toInt + (4611686018427387904 : Word).toInt := by decide

/-- Every parameter word -1: the address of each parameter in Position mode names no cell. -/
abbrev negativeState : State := started [1, -1, -1, -1] 0 [3]

theorem witness_AluFaultsInParameterOrder :
    negativeState.readAddr 1 .position = .error (.negativeAddress 0 1 (-1)) ∧
    negativeState.operand 1 .immediate = some (-1) ∧
    negativeState.readAddr 2 .position = .error (.negativeAddress 0 2 (-1)) ∧
    negativeState.operand 2 .immediate = some (-1) ∧
    negativeState.targetAddr 3 .position = .error (.negativeAddress 0 3 (-1)) := by decide

theorem witness_AluFrame :
    (∃ u, exec (.add .immediate .immediate .position) aluState = .next u) ∧
    aluState.targetAddr 3 .position = .ok 5 ∧
    (∃ u, exec (.equals .immediate .immediate .position) negativeState = .next u) ∧
    negativeState.targetAddr 3 .position = .error (.negativeAddress 0 3 (-1)) :=
  ⟨⟨_, rfl⟩, by decide, ⟨_, rfl⟩, by decide⟩

theorem witness_input_statements :
    aluState.q = [] ∧ (started [3, 3, 99, 0] 0 [7, 8]).q = 7 :: [8] ∧
    (started [3, 3, 99, 0] 0 [7, 8]).targetAddr 1 .position = .ok 3 ∧ negativeState.q ≠ [] ∧
    negativeState.targetAddr 1 .position = .error (.negativeAddress 0 1 (-1)) := by decide

theorem witness_InputFrame :
    (∃ u, exec (.input .position .position .position) (started [3, 3, 99, 0] 0 [7, 8]) = .next u) ∧
    (∃ u, exec (.input .position .position .position) negativeState = .next u) := ⟨⟨_, rfl⟩, ⟨_, rfl⟩⟩

theorem witness_output_statements :
    (started [104, -17, 99] 0 [5]).operand 1 .immediate = some (-17) ∧
    ∃ u, exec (.output .immediate .position .position) (started [104, -17, 99] 0 [5]) = .next u := ⟨by decide, _, rfl⟩

-- Conditions 0 and -3, targets 0 and -1.
theorem witness_jump_statements :
    (started [1105, 0, -1] 0 []).operand 1 .immediate = some 0 ∧
    (started [1105, 0, -1] 0 []).operand 2 .immediate = some (-1) ∧ (-1 : Word).toInt < 0 ∧
    (started [1105, -3, 0] 0 []).operand 1 .immediate = some (-3) ∧
    (started [1105, -3, 0] 0 []).operand 2 .immediate = some 0 ∧ (-3 : Word).toInt ≠ 0 ∧
    (started [1105, -3, -1] 0 []).operand 1 .immediate = some (-3) ∧
    (started [1105, -3, -1] 0 []).operand 2 .immediate = some (-1) := by decide

theorem witness_ControlFrame :
    (∃ u, exec (.jumpIfTrue .immediate .immediate .position) (started [1105, -3, 0] 0 []) = .next u) ∧
    (∃ u, exec (.jumpIfFalse .immediate .immediate .position) (started [1106, 0, 4] 0 []) = .next u) ∧
    (∃ u, exec (.setRelativeBase .immediate .position .position) (started [109, 4, 99] 0 []) = .next u) ∧
    (∃ u, exec (.halt .position .position .position) (started [99] 0 []) = .next u) :=
  ⟨⟨_, rfl⟩, ⟨_, rfl⟩, ⟨_, rfl⟩, ⟨_, rfl⟩⟩

-- The sum reaches the greatest value of i64.
theorem witness_SetRelativeBaseAccumulates :
    (started [109, 1, 99] 9223372036854775806 []).operand 1 .immediate = some 1 ∧
    (9223372036854775806 : Word).toInt + (1 : Word).toInt = 2 ^ 63 - 1 := by decide

theorem witness_ReadFaultsCommitNothing :
    negativeState.readAddr 1 .position = .error (.negativeAddress 0 1 (-1)) ∧
    negativeState.operand 1 .immediate = some (-1) ∧
    negativeState.readAddr 2 .position = .error (.negativeAddress 0 2 (-1)) := by decide

/-! ## Witnesses: the engine -/

theorem witness_StepRunsDecodedInstruction :
    aluState.fault = none ∧ aluState.st = .running ∧
    decode (aluState.cell aluState.ptr) = .ok (.add .immediate .immediate .position) := by decide

theorem witness_StepRecordsDecodeFaults :
    (started [-1] 0 []).fault = none ∧ (started [-1] 0 []).st = .running ∧
    [-1, 0, 100001, 301, 103].map (fun w => (started [w] 0 []).cell 0) = [-1, 0, 100001, 301, 103] := by decide

theorem witness_StepEnabledExactly :
    (∃ t, step aluState = .next t) ∧ (aluState.setFault (some (.invalidOpcode 0 0))).fault = some (.invalidOpcode 0 0) ∧
    State.reset.fault = none ∧ State.reset.st ≠ .running := ⟨⟨_, rfl⟩, by decide⟩

theorem witness_FaultCommitsNothing :
    ∃ t f, step (started [1105, 1, -1] 0 []) = .next t ∧ t.fault = some f := ⟨_, _, rfl, rfl⟩

theorem witness_OnlySetRelativeBaseWritesTheBase :
    ∃ t, step (started [109, 4, 99] 0 []) = .next t ∧ t.rb ≠ (started [109, 4, 99] 0 []).rb := ⟨_, rfl, by decide⟩

-- The two statements about completed steps; a paused and a Stopped instance for the other clauses.
theorem witness_completed_steps :
    (∃ t, step aluState = .next t ∧ t.fault = none) ∧
    decode (aluState.cell aluState.ptr) = .ok (.add .immediate .immediate .position) ∧
    (aluState.setSt .paused).fault = none ∧ (aluState.setSt .paused).st ≠ .stopped ∧
    (aluState.setSt .stopped).st = .stopped ∧ run 1 (aluState.setSt .stopped) = some (aluState.setSt .stopped) :=
  ⟨⟨_, rfl, rfl⟩, by decide⟩

/-- The state of an ALU instruction at 0 with Immediate operands and target 4, and that it meets the hypotheses. -/
abbrev nextCellState (w a b : Word) : State := started [w, a, b, 4, 7] 0 []

abbrev NextCellPremises (w a b : Word) : Prop :=
  (nextCellState w a b).Inv ∧ after (nextCellState w a b) = some (4, .running, none) ∧
  (nextCellState w a b).operand 1 .immediate = some a ∧ (nextCellState w a b).operand 2 .immediate = some b ∧
  (nextCellState w a b).targetAddr 3 .position = .ok 4

-- P5's Add writes 99 into cell 4, Multiply 99, Equals 1; LessThan at its boundary 0, a word the decoder rejects.
theorem witness_WrittenCellIsFetchedNext_alu :
    NextCellPremises 1101 1 98 ∧ cellAfter 4 (nextCellState 1101 1 98) = some 99 ∧
    NextCellPremises 1102 99 1 ∧ cellAfter 4 (nextCellState 1102 99 1) = some 99 ∧
    NextCellPremises 1107 1 1 ∧ cellAfter 4 (nextCellState 1107 1 1) = some 0 ∧
    NextCellPremises 1108 1 1 ∧ cellAfter 4 (nextCellState 1108 1 1) = some 1 ∧
    decode 99 = .ok (.halt .position .position .position) ∧ decode 1 = .ok (.add .position .position .position) ∧
    decode 0 = .error .invalidOpcode :=
  ⟨by decide, by decide, by decide, by decide, by decide, by decide, by decide, by decide, by decide⟩

theorem witness_WrittenCellIsFetchedNext_decodes :
    decode 1101 = .ok (.add .immediate .immediate .position) ∧
    decode 1102 = .ok (.multiply .immediate .immediate .position) ∧
    decode 1107 = .ok (.lessThan .immediate .immediate .position) ∧
    decode 1108 = .ok (.equals .immediate .immediate .position) := by decide

-- The Input writes 99 into cell 2.
theorem witness_WrittenCellIsFetchedNext_input :
    (started [3, 2, 0] 0 [99]).Inv ∧ after (started [3, 2, 0] 0 [99]) = some (2, .running, none) ∧
    decode 3 = .ok (.input .position .position .position) ∧ (started [3, 2, 0] 0 [99]).targetAddr 1 .position = .ok 2 ∧
    (started [3, 2, 0] 0 [99]).q.head? = some 99 ∧ decode 99 = .ok (.halt .position .position .position) := by decide

theorem witness_RunFollowsSteps :
    (∃ t, step aluState = .next t) ∧ State.reset.st ≠ .running ∧
    (∃ t, run 1 (State.ofImage [104, 5, 99]) = some t ∧ t.fault = none) := ⟨⟨_, rfl⟩, by decide, _, rfl, rfl⟩

-- The two operations return within 2 on an instance that outputs 5 and halts.
theorem witness_RunOutcomeIsUnique :
    (∃ t, run 2 (State.ofImage [104, 5, 99]) = some t) ∧ (∃ t, runUntilHalted 2 (State.ofImage [104, 5, 99]) = some t) :=
  ⟨⟨_, rfl⟩, ⟨_, rfl⟩⟩

theorem witness_RunUntilHaltedResumes :
    (∃ t u, run 1 (State.ofImage [104, 5, 99]) = some t ∧ t.fault = none ∧ t.st = .paused ∧
      runUntilHalted 1 t = some u ∧ u.fault = none) ∧
    (∃ t, run 1 (State.ofImage [99]) = some t ∧ t.st = .stopped) ∧
    (∃ t, run 1 (State.ofImage [3, 0, 99]) = some t ∧ t.st = .pausedWaitingForInput) ∧
    (∃ t, run 1 (State.ofImage [0]) = some t ∧ t.fault ≠ none) :=
  ⟨⟨_, _, rfl, rfl, rfl, rfl, rfl⟩, ⟨_, rfl, rfl⟩, ⟨_, rfl, rfl⟩, ⟨_, rfl, by decide⟩⟩

-- 43_engine.md R118: a jump to itself.
theorem witness_SelfLoopNeverReturns : step (started [1105, 1, 0] 0 []) = .next (started [1105, 1, 0] 0 []) :=
  next_of_nextOf (by decide)

theorem witness_RunOnStoppedOrFaultedChangesNothing :
    (aluState.setSt .stopped).st = .stopped ∧ (aluState.setFault (some (.invalidOpcode 0 0))).fault ≠ none := by decide

/-! ## Witnesses: the host and load -/

theorem witness_ChannelOperations :
    State.reset.q = [] ∧ (started [3, 3, 99, 0] 0 [7, 8]).q = 7 :: [8] := by decide

theorem witness_CloneCopiesAndResets :
    aluState.fault = none ∧
    (aluState.setFault (some (.invalidOpcode 0 0))).fault = some (.invalidOpcode 0 0) := by decide

theorem witness_HostNeverWritesRegisters :
    (∃ t r, hostOp 1 (.enqueue 3) aluState = some (r, t)) ∧
    hostOp 1 .peek aluState = some (.error .emptyChannel, aluState) := ⟨⟨_, _, rfl⟩, rfl⟩

theorem witness_ReachableInstancesKeepInvariants :
    Reachable (State.ofImage [9, 9]) ∧
    hostOp 1 .run (aluState.setFault (some (.invalidOpcode 0 0))) =
      some (.done, aluState.setFault (some (.invalidOpcode 0 0))) :=
  ⟨.load ['9', ',', '9'] _ (by decide), rfl⟩

theorem witness_InstancesAreIndependent :
    ∃ r w', worldOp 1 (.onInstance 0 (.enqueue 3)) [some twoCells, some State.reset] = some (r, w') ∧
      (1 : Nat) < [some twoCells, some State.reset].length := ⟨_, _, rfl, by decide⟩

-- P2 with one input, driven by `run` and draining.
theorem witness_PauseResumeFidelity :
    ∃ t, drive 2 2 [7] (State.ofImage [3, 0, 99]) = some t ∧ t.HaltedNormally := ⟨_, rfl, by decide⟩

theorem witness_ImageTextLoads :
    ([1, -2, 3] : List Word) ≠ [] ∧ imageText [1, -2, 3] = ['1', ',', '-', '2', ',', '3'] := by decide

theorem witness_LoadGivesResetValues :
    parseImage ['1', ',', '2', ',', '3'] = .ok [1, 2, 3] ∧
    load ['1', ',', '2', ',', '3'] = .ok (State.ofImage [1, 2, 3]) := by decide

/-- A piece the parser gives no number is no token. -/
theorem no_token {p : List Char} (h : signedValue (trimSpace p) = none) (v : Int) : ¬ IsToken p v := fun hv => by
  rw [signedValue_trimSpace_eq_some.mpr hv] at h
  cases h

-- 2.7: the empty text, 1,,2 and a leading comma (an empty piece), 1 2, a sign twice, 0x10; and 2^63, one above i64.
theorem witness_LoadRefusesMalformedText :
    (∀ v, ¬ IsToken [] v) ∧ (∀ v, ¬ IsToken ['1', ' ', '2'] v) ∧ (∀ v, ¬ IsToken ['+', '-', '1'] v) ∧
    (∀ v, ¬ IsToken ['0', 'x', '1', '0'] v) ∧
    (∀ v, IsToken "9223372036854775808".toList v → 2 ^ 63 ≤ v) ∧
    [','].intercalate [['1'], [], ['2']] = ['1', ',', ',', '2'] ∧
    'x' ∈ ['0', 'x', '1'] ∧
    'x' ∉ ['0', '1', '2', '3', '4', '5', '6', '7', '8', '9', '+', '-', ',', ' ', '\t', '\r', '\n'] := by
  refine ⟨no_token (by decide), no_token (by decide), no_token (by decide), no_token (by decide), fun v hv => ?_,
    by decide⟩
  have h := signedValue_trimSpace_eq_some.mpr hv
  rw [show signedValue (trimSpace "9223372036854775808".toList) = some (2 ^ 63) by decide] at h
  exact le_of_eq (Option.some.inj h)

-- 2.7: ` 1 , -2 ,+3` and a newline.
theorem witness_LoadFollowsTheGrammar :
    load ([','].intercalate [[' ', '1', ' '], [' ', '-', '2', ' '], ['+', '3', '\n']]) =
      .ok (State.ofImage [1, -2, 3]) ∧
    List.Forall₂ (fun p (v : Word) => IsToken p v.toInt) [[' ', '1', ' '], [' ', '-', '2', ' '], ['+', '3', '\n']]
      [1, -2, 3] :=
  ⟨by decide, .cons (tokenValue_eq_some.mp (by decide))
    (.cons (tokenValue_eq_some.mp (by decide)) (.cons (tokenValue_eq_some.mp (by decide)) .nil))⟩

end Sys2Proof.Tests
end

