-- ==== Sys2Proof/Proofs/Memory.lean ====
section
/-!
PROOFS. The memory read and the memory write of spec/20_memory.md (R42, R43).
-/
namespace Sys2Proof.Machine

/-- A write zero-fills: a cell at or above the old length, other than the written one, reads as 0 (R43). -/
theorem State.Inv.memWrite_cell_eq_zero {s : State} (h : s.Inv) {a x : Nat} (v : Word) (hxa : x ≠ a)
    (hx : s.len ≤ x) : (s.memWrite a v).cell x = 0 :=
  (s.memWrite_cell_ne v hxa).trans (h.cell_eq_zero hx)

/-- Settles O10: the written cell by the read-after-write law of canonical memory; every other cell by the law for
distinct addresses, which are 0 above the old length by the invariant; the rest of the state by the write's frame. -/
theorem memWriteReplacesOneCell : Obligations.MemWriteReplacesOneCell := by
  intro s a v hinv
  have hwf : s.mem.wf = true := hinv.1
  refine ⟨State.memWrite_cell_self hwf a v, fun x hxa => s.memWrite_cell_ne v hxa,
    fun x hxa hx => hinv.memWrite_cell_eq_zero v hxa hx, ?len, s.memWrite_ptr a v, s.memWrite_rb a v,
    s.memWrite_st a v, s.memWrite_q a v, s.memWrite_fault a v, hinv.memWrite a v⟩
  case len => rw [State.memWrite_len, State.grow_len]

/-- Settles O9: a read is the cell paired with the grown state, and growth only sets the length; a cell at or above the
length is 0 by the invariant. -/
theorem memReadReturnsTheCell : Obligations.MemReadReturnsTheCell := by
  intro s a
  have hread : s.memRead a = (s.cell a, s.setLen (grownLen s.len a)) := rfl
  refine ⟨hread, fun hinv ha => ?_⟩
  rw [hread]
  exact hinv.cell_eq_zero ha

end Sys2Proof.Machine
end

