-- ==== Sys2Proof/Proofs/Encoding.lean ====
section
/-!
PROOFS. The opcode field of spec/30_encoding.md R61: what the decoder makes of it, and the step at a rejected word.
-/
namespace Sys2Proof

/-- R61's field of a word that is not negative, as an integer. -/
theorem opcodeField_of_nonneg {w : Word} (hw : 0 ≤ w.toInt) : (opcodeField w.toInt.toNat : Int) = w.toInt % 100 := by
  unfold opcodeField
  omega

/-- The opcode domain of R61, for the field as an integer. -/
theorem opcodeOfNumber_eq_none_iff_toInt {w : Word} (hw : 0 ≤ w.toInt) :
    opcodeOfNumber (opcodeField w.toInt.toNat) = none ↔ w.toInt % 100 ∉ [1, 2, 3, 4, 5, 6, 7, 8, 9, 99] := by
  rw [opcodeOfNumber_eq_none, ← opcodeField_of_nonneg hw]
  simp only [List.mem_cons, List.not_mem_nil, or_false]
  omega

theorem decodeModes_ne_invalidOpcode (n : Nat) : decodeModes n ≠ .error .invalidOpcode := by
  unfold decodeModes
  split
  · exact nofun
  · split
    · exact nofun
    · split <;> exact nofun

/-- A word that is not negative and whose opcode field is outside the domain is InvalidOpcode. -/
theorem decode_of_no_opcode {w : Word} (hw : 0 ≤ w.toInt)
    (hop : opcodeOfNumber (opcodeField w.toInt.toNat) = none) : decode w = .error .invalidOpcode := by
  unfold decode
  rw [if_neg (by omega), hop]

/-- Everything the decoder can answer once the opcode field names `op`: a rejection other than InvalidOpcode, or the
instruction of `op` with three mode digits. -/
theorem decode_of_opcode {w : Word} {op : Opcode} (hw : 0 ≤ w.toInt)
    (hop : opcodeOfNumber (opcodeField w.toInt.toNat) = some op) :
    (∃ r, r ≠ .invalidOpcode ∧ decode w = .error r) ∨ ∃ m1 m2 m3, decode w = .ok (instrOf op m1 m2 m3) := by
  unfold decode
  rw [if_neg (by omega), hop]
  dsimp only
  split
  case isTrue => exact .inl ⟨.excessModeDigits, nofun, rfl⟩
  case isFalse =>
    cases hm : decodeModes w.toInt.toNat with
    | error r => exact .inl ⟨r, fun hr => decodeModes_ne_invalidOpcode _ (hr ▸ hm), rfl⟩
    | ok m =>
      obtain ⟨m1, m2, m3⟩ := m
      dsimp only
      split
      · exact .inr ⟨m1, m2, m3, rfl⟩
      · split
        · exact .inl ⟨.immediateWrite _, nofun, rfl⟩
        · exact .inr ⟨m1, m2, m3, rfl⟩

/-- The decoder answers InvalidOpcode exactly when the opcode field is outside the domain. -/
theorem decode_eq_invalidOpcode_iff {w : Word} (hw : 0 ≤ w.toInt) :
    decode w = .error .invalidOpcode ↔ opcodeOfNumber (opcodeField w.toInt.toNat) = none := by
  refine ⟨fun hd => ?_, decode_of_no_opcode hw⟩
  cases hop : opcodeOfNumber (opcodeField w.toInt.toNat) with
  | none => rfl
  | some op =>
    obtain ⟨r, hr, hd'⟩ | ⟨m1, m2, m3, hd'⟩ := decode_of_opcode hw hop
    · exact absurd (Except.error.inj (hd'.symm.trans hd)) hr
    · cases hd'.symm.trans hd

/-- An accepted word's last two decimal digits are the number of its instruction's opcode. -/
theorem opcodeNumber_of_decode_eq_ok {w : Word} {i : Instr} (hw : 0 ≤ w.toInt) (hd : decode w = .ok i) :
    (opcodeNumber i.opcode : Int) = w.toInt % 100 := by
  cases hop : opcodeOfNumber (opcodeField w.toInt.toNat) with
  | none => cases (decode_of_no_opcode hw hop).symm.trans hd
  | some op =>
    obtain ⟨r, -, hd'⟩ | ⟨m1, m2, m3, hd'⟩ := decode_of_opcode hw hop
    · cases hd'.symm.trans hd
    · cases hd'.symm.trans hd
      rw [instrOf_opcode, opcodeNumber_of_opcodeOfNumber hop, opcodeField_of_nonneg hw]

end Sys2Proof

namespace Sys2Proof.Machine

/-- An enabled step at a word the decoder rejects records the fault of that rejection and changes nothing else. -/
theorem step_of_decode_error {s : State} {r : DecodeReject} (hf : s.fault = none) (hst : s.st = .running)
    (hd : decode (s.cell s.ptr) = .error r) :
    step s = .next (s.setFault (some (rejectFault s.ptr (s.cell s.ptr) r))) := by
  have hfd : fetchDecode s = .error (rejectFault s.ptr (s.cell s.ptr) r) := by
    unfold fetchDecode
    rw [hd]
  unfold step
  rw [hf, hfd]
  exact if_pos hst

/-- No step follows a recorded fault. -/
theorem step_ne_next_of_fault {s : State} {f : InstrFault} (hf : s.fault = some f) (u : State) :
    step s ≠ .next u := fun h => by
  obtain ⟨hnone, -⟩ := step_next h
  cases hf.symm.trans hnone

/-- Settles O4: the decoder's opcode is the table's answer for the field, so InvalidOpcode is the table's `none`; the
step at such a word records the rejection, and a faulted state has no step. -/
theorem opcodeIsTheLastTwoDigits : Obligations.OpcodeIsTheLastTwoDigits := by
  intro w hw
  have hreject : w.toInt % 100 ∉ [1, 2, 3, 4, 5, 6, 7, 8, 9, 99] ↔ decode w = .error .invalidOpcode :=
    (opcodeOfNumber_eq_none_iff_toInt hw).symm.trans (decode_eq_invalidOpcode_iff hw).symm
  refine ⟨fun i hd => ?opcode, hreject, fun hout s hf hst hcell => ?fatal⟩
  case opcode =>
    have hnum := opcodeNumber_of_decode_eq_ok hw hd
    cases i <;> exact hnum.symm
  case fatal =>
    subst hcell
    exact ⟨_, step_of_decode_error hf hst (hreject.mp hout), rfl, step_ne_next_of_fault rfl⟩

end Sys2Proof.Machine
end

