-- ==== Sys2Proof/Proofs/Engine.lean ====
section
/-!
PROOFS. The state machine of spec/43_engine.md R110: the execution State after a completed step, and how the run
operations enter Running and leave a Stopped instance alone.
-/
namespace Sys2Proof.Machine

/-! ## The execution State after a completed step -/

@[simp] theorem State.aluDone_st (s : State) (m1 m2 : Mode) (t : Nat) (r : Word) :
    (s.aluDone m1 m2 t r).st = s.st :=
  s.growAll_st _

@[simp] theorem State.inputDone_st (s : State) (t : Nat) (v : Word) (rest : List Word) :
    (s.inputDone t v rest).st = s.st :=
  s.growAll_st _

@[simp] theorem State.jumpDone_st (s : State) (m1 m2 : Mode) (p : Nat) : (s.jumpDone m1 m2 p).st = s.st :=
  s.growAll_st _

@[simp] theorem State.rebaseDone_st (s : State) (m1 : Mode) (r : Word) : (s.rebaseDone m1 r).st = s.st :=
  s.growAll_st _

/-- A step that raised no fault has completed the instruction its word decodes to (R113). -/
theorem completed_of_step {s t : State} {i : Instr} (hstep : step s = .next t) (hf : t.fault = none)
    (hd : decode (s.cell s.ptr) = .ok i) : Completed i s t := by
  have hfd : fetchDecode s = .ok i := by
    unfold fetchDecode
    rw [hd]
  obtain ⟨-, -, ⟨j, hj, hexec⟩ | ⟨f, hreject, -⟩⟩ := step_next hstep
  · cases hfd.symm.trans hj
    obtain hdone | ⟨f, -, rfl⟩ := exec_next hexec
    · exact hdone
    · cases hf
  · cases hfd.symm.trans hreject

/-- The execution State R110 names for an instruction of opcode `op` that completes from Running in `s`. -/
def State.stAfter (s : State) (op : Opcode) : ExecState :=
  match op with
  | .output => .paused
  | .halt => .stopped
  | .input => if s.q = [] then .pausedWaitingForInput else .running
  | _ => .running

/-- Output, Halt and an Input on an empty channel set the execution State; every other completion keeps it. -/
theorem Completed.st_eq_stAfter {i : Instr} {s u : State} (h : Completed i s u) (hst : s.st = .running) :
    u.st = s.stAfter i.opcode := by
  cases i with
  | add m1 m2 m3 =>
    obtain ⟨_, _, _, _, -, -, -, -, rfl⟩ := h
    exact (s.aluDone_st ..).trans hst
  | multiply m1 m2 m3 =>
    obtain ⟨_, _, _, _, -, -, -, -, rfl⟩ := h
    exact (s.aluDone_st ..).trans hst
  | input m1 m2 m3 =>
    obtain ⟨hq, rfl⟩ | ⟨v, rest, t, hq, -, rfl⟩ := h
    · exact (if_pos hq).symm
    · have hne : s.q ≠ [] := hq ▸ List.cons_ne_nil v rest
      exact ((s.inputDone_st t v rest).trans hst).trans (if_neg hne).symm
  | output m1 m2 m3 =>
    obtain ⟨_, -, rfl⟩ := h
    rfl
  | jumpIfTrue m1 m2 m3 =>
    obtain ⟨_, _, -, -, ⟨-, -, rfl⟩ | ⟨-, rfl⟩⟩ := h <;> exact (s.jumpDone_st ..).trans hst
  | jumpIfFalse m1 m2 m3 =>
    obtain ⟨_, _, -, -, ⟨-, -, rfl⟩ | ⟨-, rfl⟩⟩ := h <;> exact (s.jumpDone_st ..).trans hst
  | lessThan m1 m2 m3 =>
    obtain ⟨_, _, _, -, -, -, rfl⟩ := h
    exact (s.aluDone_st ..).trans hst
  | equals m1 m2 m3 =>
    obtain ⟨_, _, _, -, -, -, rfl⟩ := h
    exact (s.aluDone_st ..).trans hst
  | setRelativeBase m1 m2 m3 =>
    obtain ⟨_, _, -, -, rfl⟩ := h
    exact (s.rebaseDone_st ..).trans hst
  | halt m1 m2 m3 =>
    cases h
    rfl

/-! ## Entering a run -/

/-- Entering Running twice is entering it once, so a run from the entered state is the same run. -/
theorem run_setSt_running {s : State} (n : Nat) (hf : s.fault = none) (hs : s.st ≠ .stopped) :
    run n (s.setSt .running) = run n s := by
  rw [run_of_live n hf hs, run_of_live (s := s.setSt .running) n hf nofun]
  rfl

theorem haltLoop_congr {n : Nat} {s u : State} (h : run n s = run n u) (k : Nat) :
    haltLoop n k s = haltLoop n k u := by
  cases k with
  | zero => rfl
  | succ k => rw [haltLoop, haltLoop, h]

/-! ## A Stopped instance -/

theorem step_ne_next_of_not_running {s : State} (hs : s.st ≠ .running) (t : State) : step s ≠ .next t := fun h => by
  obtain ⟨-, hrun, -⟩ := step_next h
  exact hs hrun

/-- `run_until_halted` on a Stopped instance returns it untouched, when its bound lets it return at all (R116). -/
theorem runUntilHalted_of_stopped {n : Nat} {s t : State} (hs : s.st = .stopped) (h : runUntilHalted n s = some t) :
    t = s := by
  have hret : s.mustReturn = true := by simp [State.mustReturn, hs]
  cases n with
  | zero => cases h
  | succ k =>
    rw [runUntilHalted, haltLoop, run_of_done _ (.inr hs)] at h
    exact (Option.some.inj ((if_pos hret).symm.trans h)).symm

/-- Settles O42: a step without a fault has completed its instruction, whose completion fixes the execution State; a
live instance's run is the loop from Running, which entering again does not change; a Stopped one has no step, and both
run operations return it as it was. -/
theorem executionStateTransitions : Obligations.ExecutionStateTransitions := by
  refine ⟨fun s t i hstep hf hd => ?step, fun n s hf hs => ?enter, fun s hs => ?stopped⟩
  case step =>
    obtain ⟨-, hrun, -⟩ := step_next hstep
    exact (completed_of_step hstep hf hd).st_eq_stAfter hrun
  case enter =>
    exact ⟨run_of_live n hf hs, s.setSt_ptr .running, haltLoop_congr (run_setSt_running n hf hs).symm n⟩
  case stopped =>
    have hne : s.st ≠ .running := hs ▸ nofun
    refine ⟨step_ne_next_of_not_running hne, fun n t h => ?_⟩
    obtain hrun | hhalt := h
    · cases (run_of_done n (.inr hs)).symm.trans hrun
      exact hs
    · rw [runUntilHalted_of_stopped hs hhalt, hs]

end Sys2Proof.Machine
end

