-- ==== Sys2Proof/Proofs/Load.lean ====
section
/-!
PROOFS. The load of spec/70_reset_and_hazards.md R160: which texts load, and the cells of a loaded instance.
-/
namespace Sys2Proof.Machine

/-- Load answers exactly the reset state of the integers the text parses into (R160). -/
theorem load_eq_ok {text : List Char} {s : State} :
    load text = .ok s ↔ ∃ vs, parseImage text = .ok vs ∧ State.ofImage vs = s := by
  unfold load
  cases parseImage text <;> simp

/-- The image starts at address 0: value `i` is the cell at address `i` (R160, R31). -/
theorem State.ofImage_cell {vs : List Word} {i : Nat} {v : Word} (h : vs[i]? = some v) :
    (State.ofImage vs).cell i = v := by
  obtain ⟨-, -, -, hplaced⟩ := placeFrom_spec vs (a := Config.resetVector) (m := []) rfl rfl
  have hcell := hplaced i v h
  rwa [Config.resetVector, Nat.zero_add] at hcell

/-- Settles O58: load builds the reset state of the integers parsed, whose cells below their number are theirs, and above
it 0 by the memory invariant; its other state elements are the reset values by definition. -/
theorem loadGivesResetValues : Obligations.LoadGivesResetValues := by
  refine ⟨fun text vs hparse => ?reset, fun text s hload => ?parses⟩
  case reset =>
    exact ⟨State.ofImage vs, load_eq_ok.mpr ⟨vs, hparse, rfl⟩, fun i v hi => State.ofImage_cell hi,
      fun i hi => (inv_ofImage vs).cell_eq_zero hi, rfl, rfl, rfl, rfl, rfl, rfl⟩
  case parses =>
    obtain ⟨vs, hparse, -⟩ := load_eq_ok.mp hload
    exact ⟨vs, hparse⟩

end Sys2Proof.Machine
end

