-- ==== Sys2Proof/Proofs/Other.lean ====
section
/-!
PROOFS. The encoding of spec/30_encoding.md: the words the decoder accepts, the order of its checks, the legal words,
and the assembler's lines.
-/
namespace Sys2Proof

/-- The layout of a word's decimal fields holds for every instruction (spec/30_encoding.md R61, R62, R73). -/
theorem encoding_fields (i : Instr) : Laws.Encoding.Statement i := by
  cases i with
  | add m1 m2 m3 => exact Laws.Encoding.add m1 m2 m3
  | multiply m1 m2 m3 => exact Laws.Encoding.multiply m1 m2 m3
  | input m1 m2 m3 => exact Laws.Encoding.input m1 m2 m3
  | output m1 m2 m3 => exact Laws.Encoding.output m1 m2 m3
  | jumpIfTrue m1 m2 m3 => exact Laws.Encoding.jumpIfTrue m1 m2 m3
  | jumpIfFalse m1 m2 m3 => exact Laws.Encoding.jumpIfFalse m1 m2 m3
  | lessThan m1 m2 m3 => exact Laws.Encoding.lessThan m1 m2 m3
  | equals m1 m2 m3 => exact Laws.Encoding.equals m1 m2 m3
  | setRelativeBase m1 m2 m3 => exact Laws.Encoding.setRelativeBase m1 m2 m3
  | halt m1 m2 m3 => exact Laws.Encoding.halt m1 m2 m3

theorem opcodeOfNumber_opcodeNumber (op : Opcode) : opcodeOfNumber (opcodeNumber op) = some op := by
  cases op <;> rfl

/-- An instruction is its opcode and its three mode digits. -/
theorem exists_instrOf (i : Instr) : ∃ op m1 m2 m3, i = instrOf op m1 m2 m3 := by
  refine ⟨i.opcode, (instrModes i).1, (instrModes i).2.1, (instrModes i).2.2, ?_⟩
  cases i <;> rfl

/-- R69 for a built instruction that writes no parameter. -/
theorem wf_instrOf_read {op : Opcode} (m1 m2 m3 : Mode) (h : writeParam op = none) :
    (instrOf op m1 m2 m3).wf = true := by
  simp [Instr.wf, instrOf_writeMode, h]

/-- R69 for a built instruction that writes parameter `i`. -/
theorem wf_instrOf_write {op : Opcode} {i : Nat} (m1 m2 m3 : Mode) (h : writeParam op = some i) :
    (instrOf op m1 m2 m3).wf = true ↔ modeOfParam i (m1, m2, m3) ≠ .immediate := by
  simp [Instr.wf, instrOf_writeMode, h]

/-! ## The decoder past its opcode check (R65) -/

section
variable {w : Word} {op : Opcode} {m1 m2 m3 : Mode} (hw : 0 ≤ w.toInt)
  (hop : opcodeOfNumber (opcodeField w.toInt.toNat) = some op)
include hw hop

/-- A digit above the mode digits is the next thing the decoder rejects. -/
theorem decode_of_excess (hn : Config.wordBound ≤ w.toInt.toNat) : decode w = .error .excessModeDigits := by
  unfold decode
  rw [if_neg (by omega), hop]
  exact if_pos hn

/-- The rejection of a mode digit is the decoder's. -/
theorem decode_of_modes_error (hn : w.toInt.toNat < Config.wordBound) {r : DecodeReject}
    (hm : decodeModes w.toInt.toNat = .error r) : decode w = .error r := by
  unfold decode
  rw [if_neg (by omega), hop]
  dsimp only
  rw [if_neg (by omega), hm]

/-- With three mode digits and no write parameter the decoder accepts. -/
theorem decode_of_modes_read (hn : w.toInt.toNat < Config.wordBound)
    (hm : decodeModes w.toInt.toNat = .ok (m1, m2, m3)) (hwp : writeParam op = none) :
    decode w = .ok (instrOf op m1 m2 m3) := by
  unfold decode
  rw [if_neg (by omega), hop]
  dsimp only
  rw [if_neg (by omega), hm, hwp]

/-- With three mode digits and a write parameter only its Immediate mode is left to reject. -/
theorem decode_of_modes_write (hn : w.toInt.toNat < Config.wordBound)
    (hm : decodeModes w.toInt.toNat = .ok (m1, m2, m3)) {i : Nat} (hwp : writeParam op = some i) :
    decode w = if modeOfParam i (m1, m2, m3) = .immediate then .error (.immediateWrite i)
      else .ok (instrOf op m1 m2 m3) := by
  unfold decode
  rw [if_neg (by omega), hop]
  dsimp only
  rw [if_neg (by omega), hm, hwp]

end

/-- The decoder accepts exactly the words whose fields are those of a well-formed instruction. -/
theorem decode_eq_ok_iff {w : Word} {i : Instr} :
    decode w = .ok i ↔ 0 ≤ w.toInt ∧ opcodeOfNumber (opcodeField w.toInt.toNat) = some i.opcode ∧
      w.toInt.toNat < Config.wordBound ∧ decodeModes w.toInt.toNat = .ok (instrModes i) ∧ i.wf = true := by
  constructor
  · intro hd
    by_cases hw : w.toInt < 0
    · rw [decode, if_pos hw] at hd; cases hd
    replace hw : 0 ≤ w.toInt := by omega
    cases hop : opcodeOfNumber (opcodeField w.toInt.toNat) with
    | none => cases (decode_of_no_opcode hw hop).symm.trans hd
    | some op =>
      by_cases hn : Config.wordBound ≤ w.toInt.toNat
      · cases (decode_of_excess hw hop hn).symm.trans hd
      replace hn : w.toInt.toNat < Config.wordBound := by omega
      cases hm : decodeModes w.toInt.toNat with
      | error r => cases (decode_of_modes_error hw hop hn hm).symm.trans hd
      | ok m =>
        obtain ⟨m1, m2, m3⟩ := m
        have hi : i = instrOf op m1 m2 m3 ∧ (instrOf op m1 m2 m3).wf = true := by
          cases hwp : writeParam op with
          | none =>
            cases (decode_of_modes_read hw hop hn hm hwp).symm.trans hd
            exact ⟨rfl, wf_instrOf_read m1 m2 m3 hwp⟩
          | some k =>
            rw [decode_of_modes_write hw hop hn hm hwp] at hd
            split at hd
            · cases hd
            · cases hd
              exact ⟨rfl, (wf_instrOf_write m1 m2 m3 hwp).mpr ‹_›⟩
        obtain ⟨rfl, hwf⟩ := hi
        exact ⟨hw, by rw [instrOf_opcode], hn, by rw [instrOf_modes], hwf⟩
  · rintro ⟨hw, hop, hn, hm, hwf⟩
    obtain ⟨op, m1, m2, m3, rfl⟩ := exists_instrOf i
    rw [instrOf_opcode] at hop
    rw [instrOf_modes] at hm
    cases hwp : writeParam op with
    | none => exact decode_of_modes_read hw hop hn hm hwp
    | some k =>
      rw [decode_of_modes_write hw hop hn hm hwp]
      exact if_neg ((wf_instrOf_write m1 m2 m3 hwp).mp hwf)

theorem toInt_encode (i : Instr) : (encode i).toInt = encodeNumber i := by
  obtain ⟨hbound, -, -⟩ := encoding_fields i
  unfold Config.wordBound at hbound
  unfold encode
  rw [← BitVec.ofInt_natCast, Machine.toInt_ofInt_of_inI64]
  unfold Machine.inI64 Config.minValue Config.maxValue
  omega

/-- Settles O1: the fields of the word read back are the instruction's own, so the characterisation of accepted words
applies. -/
theorem decodeUndoesEncode : Obligations.DecodeUndoesEncode := by
  intro i hwf
  obtain ⟨hbound, hop, hmodes⟩ := encoding_fields i
  refine decode_eq_ok_iff.mpr ?_
  rw [toInt_encode, Int.toNat_natCast, hop, opcodeOfNumber_opcodeNumber]
  exact ⟨by omega, rfl, hbound, hmodes, hwf⟩

/-- The mode decoder reads the three digits above the opcode field. -/
theorem modeDigits_of_decodeModes {n : Nat} {m : Mode × Mode × Mode} (h : decodeModes n = .ok m) :
    modeDigit m.1 = n / 100 % 10 ∧ modeDigit m.2.1 = n / 1000 % 10 ∧ modeDigit m.2.2 = n / 10000 % 10 := by
  unfold decodeModes at h
  split at h; · cases h
  split at h; · cases h
  split at h; · cases h
  rename_i _ _ h1 _ _ h2 _ _ h3
  cases h
  exact ⟨modeDigit_of_modeOfDigit h1, modeDigit_of_modeOfDigit h2, modeDigit_of_modeOfDigit h3⟩

/-- An accepted word is the sum of its decimal fields. -/
theorem encodeNumber_of_decode {w : Word} {i : Instr} (h : decode w = .ok i) : (encodeNumber i : Int) = w.toInt := by
  obtain ⟨hw, hop, hbound, hmodes, -⟩ := decode_eq_ok_iff.mp h
  have hopcode := opcodeNumber_of_opcodeOfNumber hop
  obtain ⟨h1, h2, h3⟩ := modeDigits_of_decodeModes hmodes
  unfold Config.wordBound at hbound
  unfold opcodeField at hopcode
  unfold encodeNumber
  omega

/-- Settles O2: an accepted word is the sum of its decimal fields, which are the fields `encode` adds up. -/
theorem encodeUndoesDecode : Obligations.EncodeUndoesDecode := by
  intro w i h
  obtain ⟨-, -, -, -, hwf⟩ := decode_eq_ok_iff.mp h
  refine ⟨hwf, BitVec.eq_of_toInt_eq ?_⟩
  rw [toInt_encode, encodeNumber_of_decode h]

/-! ## The legal words (R71) -/

/-- The three modes of R62. -/
def allModes : List Mode := [.position, .immediate, .relative]

/-- The ten opcodes of R61. -/
def allOpcodes : List Opcode :=
  [.add, .multiply, .input, .output, .jumpIfTrue, .jumpIfFalse, .lessThan, .equals, .setRelativeBase, .halt]

/-- Every instruction: every opcode with every combination of mode digits. -/
def allInstrs : List Instr :=
  (allOpcodes ×ˢ allModes ×ˢ allModes ×ˢ allModes).map fun p => instrOf p.1 p.2.1 p.2.2.1 p.2.2.2

theorem mem_allInstrs (i : Instr) : i ∈ allInstrs := by
  obtain ⟨op, m1, m2, m3, rfl⟩ := exists_instrOf i
  have hmode : ∀ m, m ∈ allModes := by intro m; cases m <;> decide
  have hop : op ∈ allOpcodes := by cases op <;> decide
  exact List.mem_map.mpr ⟨(op, m1, m2, m3), by simp [hmode, hop], rfl⟩

theorem nodup_allInstrs : allInstrs.Nodup := by
  refine List.Nodup.map (fun p q h => ?_) ((show allOpcodes.Nodup by decide).product
    ((show allModes.Nodup by decide).product ((show allModes.Nodup by decide).product (by decide))))
  obtain ⟨op, m1, m2, m3⟩ := p
  obtain ⟨op', m1', m2', m3'⟩ := q
  have hop := congrArg Instr.opcode h
  have hm := congrArg instrModes h
  simp only [instrOf_opcode, instrOf_modes] at hop hm
  rw [hop, hm]

/-- The words of the well-formed instructions. -/
def legalWords : List Word := (allInstrs.filter Instr.wf).map encode

theorem mem_legalWords (w : Word) : w ∈ legalWords ↔ ∃ i, decode w = .ok i := by
  constructor
  · intro h
    obtain ⟨i, hi, rfl⟩ := List.mem_map.mp h
    exact ⟨i, decodeUndoesEncode i (List.mem_filter.mp hi).2⟩
  · rintro ⟨i, hd⟩
    obtain ⟨hwf, rfl⟩ := encodeUndoesDecode w i hd
    exact List.mem_map_of_mem (List.mem_filter.mpr ⟨mem_allInstrs i, hwf⟩)

/-- Well-formed instructions with the same word are the same, by decoding it. -/
theorem nodup_legalWords : legalWords.Nodup := by
  refine List.Nodup.map_on (fun i hi j hj h => ?_) (nodup_allInstrs.filter _)
  have hdi := decodeUndoesEncode i (List.mem_filter.mp hi).2
  have hdj := decodeUndoesEncode j (List.mem_filter.mp hj).2
  rw [h] at hdi
  exact Except.ok.inj (hdi.symm.trans hdj)

theorem length_legalWords : legalWords.length = 225 := by
  rw [legalWords, List.length_map]
  rfl

/-- Settles O3: the words of the well-formed instructions. Decoding tells them apart, and they are all the accepted
words because encoding undoes decoding. -/
theorem legalWordsNumber225 : Obligations.LegalWordsNumber225 :=
  ⟨legalWords, nodup_legalWords, length_legalWords, mem_legalWords⟩

/-! ## The decoder's checks in decimal digits (R65) -/

/-- Everything the mode decoder can answer: the first digit above 2 as a rejection, or three modes (R62, R68). -/
theorem decodeModes_cases (n : Nat) :
    (2 < n / 100 % 10 ∧ decodeModes n = .error (.invalidParameterMode 1)) ∨
    (n / 100 % 10 ≤ 2 ∧ 2 < n / 1000 % 10 ∧ decodeModes n = .error (.invalidParameterMode 2)) ∨
    (n / 100 % 10 ≤ 2 ∧ n / 1000 % 10 ≤ 2 ∧ 2 < n / 10000 % 10 ∧ decodeModes n = .error (.invalidParameterMode 3)) ∨
    (n / 100 % 10 ≤ 2 ∧ n / 1000 % 10 ≤ 2 ∧ n / 10000 % 10 ≤ 2 ∧ ∃ m, decodeModes n = .ok m) := by
  have hle {d : Nat} {m : Mode} (h : modeOfDigit d = some m) : d ≤ 2 :=
    Nat.le_of_not_lt fun hd => Option.some_ne_none m (h.symm.trans (modeOfDigit_eq_none.mpr hd))
  unfold decodeModes
  split
  · exact .inl ⟨modeOfDigit_eq_none.mp ‹_›, rfl⟩
  · refine .inr ?_
    split
    · exact .inl ⟨hle ‹_›, modeOfDigit_eq_none.mp ‹_›, rfl⟩
    · refine .inr ?_
      split
      · exact .inl ⟨hle ‹_›, hle ‹_›, modeOfDigit_eq_none.mp ‹_›, rfl⟩
      · exact .inr ⟨hle ‹_›, hle ‹_›, hle ‹_›, _, rfl⟩

/-- The write parameter of an opcode, by its number (R64). -/
theorem writeParam_cases (op : Opcode) :
    (opcodeNumber op ∈ [1, 2, 7, 8] ∧ writeParam op = some 3) ∨ (opcodeNumber op = 3 ∧ writeParam op = some 1) ∨
    (opcodeNumber op ∉ [1, 2, 3, 7, 8] ∧ writeParam op = none) := by
  cases op <;> decide

theorem modeDigit_eq_one {m : Mode} : modeDigit m = 1 ↔ m = .immediate := by
  cases m <;> decide

/-- With three mode digits, an Immediate write parameter is read off the decimal digits: digit 10000 of the four ALU
opcodes, digit 100 of Input (R64, R69). -/
theorem decode_of_modes_toInt {w : Word} {op : Opcode} {m1 m2 m3 : Mode} (hw : 0 ≤ w.toInt)
    (hop : opcodeOfNumber (opcodeField w.toInt.toNat) = some op) (hn : w.toInt.toNat < Config.wordBound)
    (hm : decodeModes w.toInt.toNat = .ok (m1, m2, m3)) :
    decode w =
      if w.toInt % 100 ∈ [1, 2, 7, 8] ∧ w.toInt / 10000 % 10 = 1 then .error (.immediateWrite 3)
      else if w.toInt % 100 = 3 ∧ w.toInt / 100 % 10 = 1 then .error (.immediateWrite 1)
      else .ok (instrOf op m1 m2 m3) := by
  have hnum : (opcodeNumber op : Int) = w.toInt % 100 := by
    rw [opcodeNumber_of_opcodeOfNumber hop, opcodeField_of_nonneg hw]
  obtain ⟨he1, -, he3⟩ := modeDigits_of_decodeModes hm
  dsimp only at he1 he3
  have himm1 : m1 = .immediate ↔ w.toInt / 100 % 10 = 1 := by rw [← modeDigit_eq_one]; omega
  have himm3 : m3 = .immediate ↔ w.toInt / 10000 % 10 = 1 := by rw [← modeDigit_eq_one]; omega
  have hwrite := writeParam_cases op
  simp only [List.mem_cons, List.not_mem_nil, or_false] at hwrite ⊢
  obtain ⟨hop', hwp⟩ | ⟨hop', hwp⟩ | ⟨hop', hwp⟩ := hwrite
  · have hin : w.toInt % 100 = 1 ∨ w.toInt % 100 = 2 ∨ w.toInt % 100 = 7 ∨ w.toInt % 100 = 8 := by omega
    have hne : ¬ w.toInt % 100 = 3 := by omega
    simp only [decode_of_modes_write hw hop hn hm hwp, modeOfParam, himm3, hin, hne, true_and, false_and, if_false]
  · have heq : w.toInt % 100 = 3 := by omega
    simp [decode_of_modes_write hw hop hn hm hwp, modeOfParam, himm1, heq]
  · have hout : ¬ (w.toInt % 100 = 1 ∨ w.toInt % 100 = 2 ∨ w.toInt % 100 = 7 ∨ w.toInt % 100 = 8) := by omega
    have hne : ¬ w.toInt % 100 = 3 := by omega
    simp only [decode_of_modes_read hw hop hn hm hwp, hout, hne, false_and, if_false]

/-- Settles O5: each check in turn is the first that holds, and the decoder answers its rejection; a word that passes
them all is accepted with the fields of its digits. -/
theorem decodeChecksInOrder : Obligations.DecodeChecksInOrder := by
  intro w d1 d2 d3 found h1 h2 h3 hfound
  by_cases hneg : w.toInt < 0
  case pos =>
    rw [if_pos hneg] at hfound
    subst hfound
    exact if_pos hneg
  rw [if_neg hneg] at hfound
  have hw : 0 ≤ w.toInt := Int.not_lt.mp hneg
  cases hop : opcodeOfNumber (opcodeField w.toInt.toNat) with
  | none =>
    rw [if_pos ((opcodeOfNumber_eq_none_iff_toInt hw).mp hop)] at hfound
    subst hfound
    exact decode_of_no_opcode hw hop
  | some op =>
    have hdomain : ¬ w.toInt % 100 ∉ [1, 2, 3, 4, 5, 6, 7, 8, 9, 99] := by
      rw [← opcodeOfNumber_eq_none_iff_toInt hw, hop]
      exact Option.some_ne_none op
    rw [if_neg hdomain] at hfound
    by_cases hbig : 100000 ≤ w.toInt
    case pos =>
      rw [if_pos hbig] at hfound
      subst hfound
      exact decode_of_excess hw hop (by unfold Config.wordBound; omega)
    rw [if_neg hbig] at hfound
    have hn : w.toInt.toNat < Config.wordBound := by unfold Config.wordBound; omega
    obtain ⟨hd1, hm⟩ | ⟨hd1, hd2, hm⟩ | ⟨hd1, hd2, hd3, hm⟩ | ⟨hd1, hd2, hd3, ⟨m1, m2, m3⟩, hm⟩ :=
      decodeModes_cases w.toInt.toNat
    · rw [if_pos (by omega)] at hfound
      subst hfound
      exact decode_of_modes_error hw hop hn hm
    · rw [if_neg (by omega), if_pos (by omega)] at hfound
      subst hfound
      exact decode_of_modes_error hw hop hn hm
    · rw [if_neg (by omega), if_neg (by omega), if_pos (by omega)] at hfound
      subst hfound
      exact decode_of_modes_error hw hop hn hm
    · rw [if_neg (by omega), if_neg (by omega), if_neg (by omega)] at hfound
      have hdec := decode_of_modes_toInt hw hop hn hm
      rw [← h1, ← h3] at hdec
      by_cases hwrite3 : w.toInt % 100 ∈ [1, 2, 7, 8] ∧ d3 = 1
      · rw [if_pos hwrite3] at hfound hdec
        subst hfound
        exact hdec
      rw [if_neg hwrite3] at hfound hdec
      by_cases hwrite1 : w.toInt % 100 = 3 ∧ d1 = 1
      · rw [if_pos hwrite1] at hfound hdec
        subst hfound
        exact hdec
      rw [if_neg hwrite1] at hfound hdec
      subst hfound
      obtain ⟨he1, he2, he3⟩ := modeDigits_of_decodeModes hm
      refine ⟨_, hdec, opcodeNumber_of_decode_eq_ok hw hdec, ?_⟩
      rw [instrOf_modes, he1, he2, he3]
      omega

/-! ## Assembler lines (R73, R74) -/

namespace Machine

/-- What `AssembledLinesDecode` says of a line whose operands stand in readable positions. -/
theorem asmCells_decodes {i : Instr} {operands : List AsmOperand} (hwf : i.wf = true)
    (hlen : 1 + operands.length = instrLength i.opcode) :
    ∃ w, asmCells i operands = some (w :: operands.map asmCell) ∧ decode w = .ok i ∧
      1 + operands.length = instrLength i.opcode :=
  ⟨encode i, if_pos hwf, decodeUndoesEncode i hwf, hlen⟩

theorem wf_of_writeMode_eq_none {i : Instr} (h : i.writeMode = none) : i.wf = true := by
  simp [Instr.wf, h]

theorem wf_eq_of_writeMode {i : Instr} {m : Mode} (h : i.writeMode = some m) : i.wf = decide (m ≠ .immediate) := by
  simp [Instr.wf, h]

/-- A line with a write operand of mode `m` is refused for `#v`, and otherwise reads as its instruction. -/
theorem asmCells_write {i : Instr} {operands : List AsmOperand} {m : Mode} (hmode : i.writeMode = some m)
    (hlen : 1 + operands.length = instrLength i.opcode) :
    if m = .immediate then asmCells i operands = none
    else ∃ w, asmCells i operands = some (w :: operands.map asmCell) ∧ decode w = .ok i ∧
      1 + operands.length = instrLength i.opcode := by
  have hwf := wf_eq_of_writeMode hmode
  split
  · exact if_neg (by simp [*])
  · exact asmCells_decodes (by simp [*]) hlen

/-- Settles O7: a line is the cells of one instruction. Whether its operands hold a write operand is the instruction's
write mode. -/
theorem assembledLinesDecode : Obligations.AssembledLinesDecode := by
  refine ⟨fun v => ⟨rfl, rfl, rfl, rfl, rfl, rfl⟩, fun line reads hreads => ?_⟩
  subst hreads
  cases line with
  | add a b d => exact asmCells_write rfl rfl
  | mul a b d => exact asmCells_write rfl rfl
  | inp d => exact asmCells_write rfl rfl
  | out a => exact asmCells_decodes (wf_of_writeMode_eq_none rfl) rfl
  | jnz c t => exact asmCells_decodes (wf_of_writeMode_eq_none rfl) rfl
  | jz c t => exact asmCells_decodes (wf_of_writeMode_eq_none rfl) rfl
  | lt a b d => exact asmCells_write rfl rfl
  | eq a b d => exact asmCells_write rfl rfl
  | arb a => exact asmCells_decodes (wf_of_writeMode_eq_none rfl) rfl
  | hlt => exact asmCells_decodes (wf_of_writeMode_eq_none rfl) rfl
  | data vs => rfl
  | mov a d => exact asmCells_write rfl rfl
  | jmp t => exact asmCells_decodes (wf_of_writeMode_eq_none rfl) rfl
  | nop => exact asmCells_decodes (wf_of_writeMode_eq_none rfl) rfl

end Machine

/-- Settles O6: each word is the word of its instruction. -/
theorem sampleWordsDecode : Obligations.SampleWordsDecode := by
  exact ⟨decodeUndoesEncode (.multiply .position .immediate .position) rfl,
    decodeUndoesEncode (.lessThan .immediate .immediate .relative) rfl,
    decodeUndoesEncode (.input .relative .position .position) rfl,
    decodeUndoesEncode (.output .immediate .immediate .position) rfl,
    decodeUndoesEncode (.jumpIfFalse .immediate .relative .position) rfl,
    decodeUndoesEncode (.setRelativeBase .relative .position .position) rfl,
    decodeUndoesEncode (.halt .relative .relative .relative) rfl⟩

end Sys2Proof
end

section
/-!
PROOFS. Memory and the host's operations: growth, the invariant and the length over every step and every operation
(spec/20_memory.md section 2, spec/10_state.md R22, R23, R32), the channel, memory access, clone, and what no host
operation but a run writes (spec/60_exceptions.md sections 1, 4 and 7).
-/
namespace Sys2Proof.Machine

/-- Settles O8: growth sets the length to `grownLen` and nothing else, so the cells stay, those at or above the length
are 0 by the invariant, and the host's access at a natural number is the machine's. -/
theorem growthFollowsNeededIndex : Obligations.GrowthFollowsNeededIndex := by
  intro s a v
  have hnat : ¬ (a : Int) < 0 := by omega
  refine ⟨fun ha => ?below, fun ha => if_pos ha, fun x => s.grow_cell a x,
    fun hinv x hx => (s.grow_cell a x).trans (hinv.cell_eq_zero hx), rfl, rfl, ?read, ?write⟩
  case below =>
    rw [State.grow, grownLen_of_lt ha]
    rfl
  case read => rw [hostMemRead, if_neg hnat, Int.toNat_natCast]
  case write => rw [hostMemWrite, if_neg hnat, Int.toNat_natCast]

/-- Settles O12: the reset state is written out, and its memory is empty. -/
theorem resetValues : Obligations.ResetValues :=
  ⟨fun _ => rfl, rfl, rfl, rfl, rfl, rfl, rfl, inv_reset⟩

/-- Settles O11: a step writes at most one cell, below a length that does not fall, and that keeps the invariant. -/
theorem stepKeepsMemoryInvariant : Obligations.StepKeepsMemoryInvariant :=
  fun _ _ hs h => (step_memStep h).inv hs

/-! ## The host's operations, case by case -/

section
variable {s : State} {v : Word} {rest : List Word}

theorem hostDequeue_of_nil (h : s.q = []) : hostDequeue s = .error .emptyChannel := by
  rw [hostDequeue, State.popFront, h]

theorem hostDequeue_of_cons (h : s.q = v :: rest) : hostDequeue s = .ok (v, s.setQ rest) := by
  rw [hostDequeue, State.popFront, h]

theorem hostPeek_of_nil (h : s.q = []) : hostPeek s = .error .emptyChannel := by
  rw [hostPeek, h]

theorem hostPeek_of_cons (h : s.q = v :: rest) : hostPeek s = .ok v := by
  rw [hostPeek, h]

theorem hostOp_dequeue_of_nil (n : Nat) (h : s.q = []) :
    hostOp n .dequeue s = some (.error .emptyChannel, s) := by
  rw [hostOp, hostDequeue_of_nil h]

theorem hostOp_dequeue_of_cons (n : Nat) (h : s.q = v :: rest) :
    hostOp n .dequeue s = some (.value v, s.setQ rest) := by
  rw [hostOp, hostDequeue_of_cons h]

theorem hostOp_peek_of_nil (n : Nat) (h : s.q = []) : hostOp n .peek s = some (.error .emptyChannel, s) := by
  rw [hostOp, hostPeek_of_nil h]

theorem hostOp_peek_of_cons (n : Nat) (h : s.q = v :: rest) : hostOp n .peek s = some (.value v, s) := by
  rw [hostOp, hostPeek_of_cons h]

theorem hostOp_memRead_of_nonneg {a : Int} (n : Nat) (s : State) (h : ¬ a < 0) :
    hostOp n (.memRead a) s = some (.value (s.cell a.toNat), s.grow a.toNat) := by
  rw [hostOp, hostMemRead, if_neg h]
  rfl

theorem hostOp_memRead_of_neg {a : Int} (n : Nat) (s : State) (h : a < 0) :
    hostOp n (.memRead a) s = some (.error (.hostRefused .memRead), s) := by
  rw [hostOp, hostMemRead, if_pos h]

theorem hostOp_memWrite_of_nonneg {a : Int} (n : Nat) (s : State) (v : Word) (h : ¬ a < 0) :
    hostOp n (.memWrite a v) s = some (.done, s.memWrite a.toNat v) := by
  rw [hostOp, hostMemWrite, if_neg h]

theorem hostOp_memWrite_of_neg {a : Int} (n : Nat) (s : State) (v : Word) (h : a < 0) :
    hostOp n (.memWrite a v) s = some (.error (.hostRefused .memWrite), s) := by
  rw [hostOp, hostMemWrite, if_pos h]

end

/-- Settles O50: each operation on an empty channel and on one with a front. -/
theorem channelOperations : Obligations.ChannelOperations := by
  refine fun s v n => ⟨rfl, fun hq => ?empty, fun x rest hq => ?front⟩
  case empty =>
    refine ⟨hostDequeue_of_nil hq, hostPeek_of_nil hq, hostOp_dequeue_of_nil n hq, hostOp_peek_of_nil n hq, ?_⟩
    have hpush : (hostEnqueue v s).q = v :: s.q := by rw [hostEnqueue, State.pushBack_q, hq]; rfl
    rw [hostDequeue_of_cons hpush]
    rfl
  case front =>
    refine ⟨hostDequeue_of_cons hq, hostPeek_of_cons hq, ?_⟩
    have hpush : (hostEnqueue v s).q = x :: (rest ++ [v]) := by rw [hostEnqueue, State.pushBack_q, hq]; rfl
    rw [hostDequeue_of_cons hpush]
    rfl

/-- Settles O51: the sign of the address decides. -/
theorem hostMemoryAccess : Obligations.HostMemoryAccess := fun s _ v n =>
  ⟨fun ha => ⟨hostOp_memRead_of_nonneg n s (Int.not_lt.mpr ha), hostOp_memWrite_of_nonneg n s v (Int.not_lt.mpr ha)⟩,
    fun ha => ⟨hostOp_memRead_of_neg n s ha, hostOp_memWrite_of_neg n s v ha⟩⟩

theorem clone_of_no_fault {s : State} (h : s.fault = none) :
    clone s = .ok (State.mk s.mem s.len Config.resetVector s.rb .initialized [] none) := by
  rw [clone, h]

theorem clone_of_fault {s : State} {f : InstrFault} (h : s.fault = some f) :
    clone s = .error (.hostRefused .clone) := by
  rw [clone, h]

/-- Settles O52: clone's two cases. -/
theorem cloneCopiesAndResets : Obligations.CloneCopiesAndResets := fun _ =>
  ⟨fun h => ⟨_, clone_of_no_fault h, rfl, rfl, rfl, rfl, rfl, rfl, rfl⟩, fun _ h => clone_of_fault h⟩

/-! ## What a host operation can do -/

/-- What a host does to an instance by other means than a run: nothing, a change of the channel, or one memory
access. -/
inductive HostEdit (s : State) : State → Prop where
  | same : HostEdit s s
  | channel (q : List Word) : HostEdit s (s.setQ q)
  | read (a : Nat) : HostEdit s (s.grow a)
  | write (a : Nat) (v : Word) : HostEdit s (s.memWrite a v)

/-- Everything a host operation can do: a run of either kind, or an edit, which a host error leaves out. -/
theorem hostOp_cases {n : Nat} {op : HostOp} {s t : State} {r : HostReply} (h : hostOp n op s = some (r, t)) :
    (op = .run ∧ r = .done ∧ run n s = some t) ∨
    (op = .runUntilHalted ∧ r = .done ∧ runUntilHalted n s = some t) ∨
    (HostEdit s t ∧ ∀ e, r = .error e → t = s) := by
  cases op with
  | run =>
    obtain ⟨u, hu, heq⟩ := Option.map_eq_some_iff.mp h
    cases heq
    exact .inl ⟨rfl, rfl, hu⟩
  | runUntilHalted =>
    obtain ⟨u, hu, heq⟩ := Option.map_eq_some_iff.mp h
    cases heq
    exact .inr (.inl ⟨rfl, rfl, hu⟩)
  | enqueue v =>
    cases h
    exact .inr (.inr ⟨.channel _, nofun⟩)
  | dequeue =>
    cases hq : s.q with
    | nil =>
      cases (hostOp_dequeue_of_nil n hq).symm.trans h
      exact .inr (.inr ⟨.same, fun _ _ => rfl⟩)
    | cons v rest =>
      cases (hostOp_dequeue_of_cons n hq).symm.trans h
      exact .inr (.inr ⟨.channel rest, nofun⟩)
  | peek =>
    cases hq : s.q with
    | nil =>
      cases (hostOp_peek_of_nil n hq).symm.trans h
      exact .inr (.inr ⟨.same, fun _ _ => rfl⟩)
    | cons v rest =>
      cases (hostOp_peek_of_cons n hq).symm.trans h
      exact .inr (.inr ⟨.same, nofun⟩)
  | memRead a =>
    by_cases ha : a < 0
    · cases (hostOp_memRead_of_neg n s ha).symm.trans h
      exact .inr (.inr ⟨.same, fun _ _ => rfl⟩)
    · cases (hostOp_memRead_of_nonneg n s ha).symm.trans h
      exact .inr (.inr ⟨.read _, nofun⟩)
  | memWrite a v =>
    by_cases ha : a < 0
    · cases (hostOp_memWrite_of_neg n s v ha).symm.trans h
      exact .inr (.inr ⟨.same, fun _ _ => rfl⟩)
    · cases (hostOp_memWrite_of_nonneg n s v ha).symm.trans h
      exact .inr (.inr ⟨.write _ v, nofun⟩)
  | readState =>
    cases h
    exact .inr (.inr ⟨.same, fun _ _ => rfl⟩)

/-- What every step, the entry of a run and every edit keep, every host operation keeps. -/
theorem hostOp_induction {P : State → Prop} (hstep : ∀ s t, P s → step s = .next t → P t)
    (hentry : ∀ s, P s → P (s.setSt .running)) (hedit : ∀ s t, P s → HostEdit s t → P t)
    {n : Nat} {op : HostOp} {s t : State} {r : HostReply} (hs : P s) (h : hostOp n op s = some (r, t)) : P t := by
  obtain ⟨-, -, hrun⟩ | ⟨-, -, hhalt⟩ | ⟨he, -⟩ := hostOp_cases h
  · exact run_induction hstep hentry hs hrun
  · exact (haltLoop_induction hstep hentry hs hhalt).1
  · exact hedit s t hs he

/-- An edit writes none of the four registers of R146. -/
theorem HostEdit.registers {s t : State} (h : HostEdit s t) :
    t.ptr = s.ptr ∧ t.rb = s.rb ∧ t.st = s.st ∧ t.fault = s.fault := by
  cases h <;> exact ⟨rfl, rfl, rfl, rfl⟩

theorem HostEdit.len_le {s t : State} (h : HostEdit s t) : s.len ≤ t.len := by
  cases h with
  | same => exact Nat.le_refl _
  | channel q => exact Nat.le_refl _
  | read a => exact le_grownLen s.len a
  | write a v => exact le_grownLen s.len a

theorem HostEdit.inv {s t : State} (h : HostEdit s t) (hs : s.Inv) : t.Inv := by
  cases h with
  | same => exact hs
  | channel q => exact hs
  | read a => exact hs.grow a
  | write a v => exact hs.memWrite a v

/-- Settles O13: no step, no entry of a run and no edit lowers the length. -/
theorem lenNeverDecreases : Obligations.LenNeverDecreases :=
  ⟨fun _ _ h => (step_memStep h).1, fun _ _ s _ _ h =>
    hostOp_induction (P := fun u => s.len ≤ u.len) (fun _ _ hu h => Nat.le_trans hu (step_memStep h).1)
      (fun _ hu => hu) (fun _ _ hu he => Nat.le_trans hu he.len_le) (Nat.le_refl _) h⟩

/-- Settles O53: an operation other than a run is an edit, and a host error leaves even that out. -/
theorem hostNeverWritesRegisters : Obligations.HostNeverWritesRegisters := by
  intro n op s t r h
  obtain ⟨hop, rfl, -⟩ | ⟨hop, rfl, -⟩ | ⟨he, herr⟩ := hostOp_cases h
  · exact ⟨fun hne => absurd hop hne, nofun⟩
  · exact ⟨fun _ hne => absurd hop hne, nofun⟩
  · exact ⟨fun _ _ => he.registers, herr⟩

/-! ## Reachable instances -/

theorem settled_of_not_enabled {s : State} (h : ¬ s.enabled = true) : s.Settled := fun hf hst =>
  h (s.enabled_iff.mpr ⟨hst, hf⟩)

/-- A run leaves an instance that is not Running, or faulted. -/
theorem run_settled {n : Nat} {s t : State} (h : run n s = some t) : t.Settled := by
  obtain ⟨hdone | hdone, rfl⟩ | ⟨-, -, hloop⟩ := run_cases h
  · exact fun hf => absurd hf hdone
  · exact fun _ => hdone ▸ nofun
  · exact settled_of_not_enabled (runLoop_induction (P := fun _ => True) (fun _ _ _ _ => trivial) trivial hloop).2

theorem settled_of_mustReturn {s : State} (h : s.mustReturn = true) : s.Settled := by
  intro hf hst
  simp [State.mustReturn, hf, hst] at h

theorem hostOp_settled {n : Nat} {op : HostOp} {s t : State} {r : HostReply} (hs : s.Settled)
    (h : hostOp n op s = some (r, t)) : t.Settled := by
  obtain ⟨-, -, hrun⟩ | ⟨-, -, hhalt⟩ | ⟨he, -⟩ := hostOp_cases h
  · exact run_settled hrun
  · exact settled_of_mustReturn
      (haltLoop_induction (P := fun _ => True) (fun _ _ _ _ => trivial) (fun _ _ => trivial) trivial hhalt).2
  · obtain ⟨-, -, hst, hf⟩ := he.registers
    rw [State.Settled, hst, hf]
    exact hs

theorem hostOp_inv {n : Nat} {op : HostOp} {s t : State} {r : HostReply} (hs : s.Inv)
    (h : hostOp n op s = some (r, t)) : t.Inv :=
  hostOp_induction stepKeepsMemoryInvariant (fun _ hu => hu) (fun _ _ hu he => he.inv hu) hs h

/-- Nothing a host does clears or changes a recorded fault (R27): a faulted instance takes no step. -/
theorem hostOp_fault {n : Nat} {op : HostOp} {s t : State} {r : HostReply} {f : InstrFault} (hf : s.fault = some f)
    (h : hostOp n op s = some (r, t)) : t.fault = some f :=
  hostOp_induction (P := fun u => u.fault = some f) (fun _ u hf hu => absurd hu (step_ne_next_of_fault hf u))
    (fun _ hu => hu) (fun _ _ hu he => he.registers.2.2.2.trans hu) hf h

/-- A clone has the memory and the length of the instance cloned, and has never run. -/
theorem inv_and_settled_of_clone {s t : State} (hs : s.Inv) (h : clone s = .ok t) : t.Inv ∧ t.Settled := by
  cases hf : s.fault with
  | none =>
    cases (clone_of_no_fault hf).symm.trans h
    exact ⟨hs, nofun⟩
  | some f => cases (clone_of_fault hf).symm.trans h

theorem Reachable.inv_and_settled {s : State} (h : Reachable s) : s.Inv ∧ s.Settled := by
  induction h with
  | load text s hload =>
    obtain ⟨vs, -, rfl⟩ := load_eq_ok.mp hload
    exact ⟨inv_ofImage vs, nofun⟩
  | clone s t _ hclone ih => exact inv_and_settled_of_clone ih.1 hclone
  | operation n op s t r _ hop ih => exact ⟨hostOp_inv ih.1 hop, hostOp_settled ih.2 hop⟩

/-- Settles O54, by induction on how the instance was reached. -/
theorem reachableInstancesKeepInvariants : Obligations.ReachableInstancesKeepInvariants :=
  ⟨fun _ h => h.inv_and_settled, fun _ _ _ _ _ _ hop hf => hostOp_fault hf hop⟩

/-! ## Several instances -/

theorem getElem?_create {w : World} (c : Except HostError State) {j : Nat} (hj : j < w.length) :
    (create c w).2[j]? = w[j]? := by
  cases c with
  | ok s => exact List.getElem?_append_left hj
  | error e => rfl

/-- Settles O55: an operation changes at most the place it names, and a new instance is put after the others. -/
theorem instancesAreIndependent : Obligations.InstancesAreIndependent := by
  intro n op w w' r j h hdiscard hon hj
  cases op with
  | load text =>
    obtain rfl : (create (load text) w).2 = w' := congrArg Prod.snd (Option.some.inj h)
    exact getElem?_create _ hj
  | clone k =>
    simp only [worldOp] at h
    split at h
    · cases h; rfl
    · obtain rfl : (create (clone _) w).2 = w' := congrArg Prod.snd (Option.some.inj h)
      exact getElem?_create _ hj
  | discard k =>
    have hne : k ≠ j := fun hk => hdiscard (hk ▸ rfl)
    simp only [worldOp] at h
    split at h
    · cases h; rfl
    · cases h
      exact List.getElem?_set_ne hne
  | onInstance k op =>
    have hne : k ≠ j := fun hk => hon op (hk ▸ rfl)
    simp only [worldOp] at h
    split at h
    · cases h; rfl
    · obtain ⟨x, -, heq⟩ := Option.map_eq_some_iff.mp h
      cases heq
      exact List.getElem?_set_ne hne

end Sys2Proof.Machine
end

section
/-!
PROOFS. Operands and the meanings of the instructions: addressing modes (spec/20_memory.md section 3), the ALU
(spec/40_arith.md), I/O (spec/41_io.md) and control (spec/42_control.md).
-/
namespace Sys2Proof.Machine

/-! ## Operands by mode -/

theorem not_inI64_iff {v : Int} : ¬ inI64 v ↔ v < -2 ^ 63 ∨ 2 ^ 63 ≤ v := by
  unfold inI64 Config.minValue Config.maxValue
  omega

/-- A Relative address, its range in numerals (R47). -/
theorem eaRelative_eq_of_range (ptr i : Nat) (rb p : Word) :
    eaRelative ptr i rb p =
      if rb.toInt + p.toInt < -2 ^ 63 ∨ 2 ^ 63 ≤ rb.toInt + p.toInt then
        .error (.arithmeticOverflow ptr (rb.toInt + p.toInt))
      else if rb.toInt + p.toInt < 0 then .error (.negativeAddress ptr i (rb.toInt + p.toInt))
      else .ok (rb.toInt + p.toInt).toNat := by
  rw [eaRelative_eq]
  by_cases hin : inI64 (rb.toInt + p.toInt)
  · rw [if_pos hin, if_neg (mt not_inI64_iff.mpr (not_not.mpr hin))]
  · rw [if_neg hin, if_pos (not_inI64_iff.mp hin)]

/-- A read parameter is its address, then the access at it. -/
theorem readParam_eq (i : Nat) (m : Mode) (s : State) :
    readParam i m s = (s.readAddr i m).map fun addr =>
      addr.elim (s.paramWord i, s.grow (s.ptr + i)) fun a => (s.cell a, (s.grow (s.ptr + i)).grow a) := by
  unfold readParam
  cases s.readAddr i m with
  | error f => rfl
  | ok addr => cases addr <;> rfl

/-- A write target is its address, after the access at its parameter word. -/
theorem writeTarget_eq (i : Nat) (m : Mode) (s : State) :
    writeTarget i m s = (s.targetAddr i m).map fun t => (t, s.grow (s.ptr + i)) := by
  unfold writeTarget
  cases s.targetAddr i m <;> rfl

/-- Settles O15: the address by mode, in the ranges of R47, and then the accesses `readParam` makes. -/
theorem readParamResolvesByMode : Obligations.ReadParamResolvesByMode := by
  intro s i p z hp hz
  subst hp hz
  refine ⟨readParam_eq i .immediate s, ?position, ?relative⟩
  case position =>
    rw [readParam_eq, State.readAddr, eaPosition]
    split <;> rfl
  case relative =>
    rw [readParam_eq, State.readAddr, eaRelative_eq_of_range]
    split
    · rfl
    · split <;> rfl

/-- Settles O16: the address by mode, in the ranges of R47, after the one access `writeTarget` makes. -/
theorem writeTargetResolvesByMode : Obligations.WriteTargetResolvesByMode := by
  intro s i p z hp hz
  subst hp hz
  refine ⟨?position, ?relative⟩
  case position =>
    rw [writeTarget_eq, State.targetAddr, eaPosition]
    split <;> rfl
  case relative =>
    rw [writeTarget_eq, State.targetAddr, eaRelative_eq_of_range]
    split
    · rfl
    · split <;> rfl

/-! ## What a completed instruction leaves -/

@[simp] theorem State.aluDone_len (s : State) (m1 m2 : Mode) (t : Nat) (r : Word) :
    (s.aluDone m1 m2 t r).len = (s.growAll (s.aluAccesses m1 m2 t)).len := rfl

@[simp] theorem State.aluDone_ptr (s : State) (m1 m2 : Mode) (t : Nat) (r : Word) :
    (s.aluDone m1 m2 t r).ptr = s.ptr + 4 := rfl

@[simp] theorem State.aluDone_rb (s : State) (m1 m2 : Mode) (t : Nat) (r : Word) :
    (s.aluDone m1 m2 t r).rb = s.rb := s.growAll_rb _

@[simp] theorem State.aluDone_q (s : State) (m1 m2 : Mode) (t : Nat) (r : Word) :
    (s.aluDone m1 m2 t r).q = s.q := s.growAll_q _

@[simp] theorem State.aluDone_fault (s : State) (m1 m2 : Mode) (t : Nat) (r : Word) :
    (s.aluDone m1 m2 t r).fault = s.fault := s.growAll_fault _

@[simp] theorem State.aluDone_mem (s : State) (m1 m2 : Mode) (t : Nat) (r : Word) :
    (s.aluDone m1 m2 t r).mem = store s.mem t r := congrArg (store · t r) (s.growAll_mem _)

theorem wroteCell_aluDone (s : State) (m1 m2 : Mode) (t : Nat) (r : Word) :
    WroteCell s (s.aluDone m1 m2 t r) t r (s.aluAccesses m1 m2 t) 4 := by
  refine ⟨fun hwf => ?_, fun x hx => ?_, rfl, rfl, s.aluDone_rb .., s.aluDone_st .., s.aluDone_fault ..⟩
  · rw [State.cell, State.aluDone_mem, lookup_store_self hwf]
  · rw [State.cell, State.aluDone_mem, lookup_store_ne _ _ hx]
    rfl

@[simp] theorem State.inputDone_q (s : State) (t : Nat) (v : Word) (rest : List Word) :
    (s.inputDone t v rest).q = rest := rfl

@[simp] theorem State.inputDone_mem (s : State) (t : Nat) (v : Word) (rest : List Word) :
    (s.inputDone t v rest).mem = store s.mem t v := rfl

theorem wroteCell_inputDone (s : State) (t : Nat) (v : Word) (rest : List Word) :
    WroteCell s (s.inputDone t v rest) t v [s.ptr, s.ptr + 1, t] 2 := by
  refine ⟨fun hwf => ?_, fun x hx => ?_, rfl, rfl, rfl, rfl, rfl⟩
  · rw [State.cell, State.inputDone_mem, lookup_store_self hwf]
  · rw [State.cell, State.inputDone_mem, lookup_store_ne _ _ hx]
    rfl

theorem wroteNoCell_growAll (s : State) (l : List Nat) : WroteNoCell s (s.growAll l) l :=
  ⟨s.growAll_cell l, rfl, s.growAll_fault l⟩

theorem wroteNoCell_outputDone (s : State) (m1 : Mode) (v : Word) :
    WroteNoCell s (s.outputDone m1 v) (s.readOneAccesses m1) := wroteNoCell_growAll s _

theorem wroteNoCell_rebaseDone (s : State) (m1 : Mode) (r : Word) :
    WroteNoCell s (s.rebaseDone m1 r) (s.readOneAccesses m1) := wroteNoCell_growAll s _

theorem wroteNoCell_jumpDone (s : State) (m1 m2 : Mode) (p : Nat) :
    WroteNoCell s (s.jumpDone m1 m2 p) (s.jumpAccesses m1 m2) := wroteNoCell_growAll s _

@[simp] theorem State.outputDone_q (s : State) (m1 : Mode) (v : Word) : (s.outputDone m1 v).q = s.q ++ [v] := rfl

@[simp] theorem State.outputDone_rb (s : State) (m1 : Mode) (v : Word) : (s.outputDone m1 v).rb = s.rb :=
  s.growAll_rb _

@[simp] theorem State.rebaseDone_q (s : State) (m1 : Mode) (r : Word) : (s.rebaseDone m1 r).q = s.q := s.growAll_q _

@[simp] theorem State.jumpDone_q (s : State) (m1 m2 : Mode) (p : Nat) : (s.jumpDone m1 m2 p).q = s.q := s.growAll_q _

@[simp] theorem State.jumpDone_rb (s : State) (m1 m2 : Mode) (p : Nat) : (s.jumpDone m1 m2 p).rb = s.rb :=
  s.growAll_rb _

/-! ## Completion -/

/-- Settles O17: with the sum in `i64` the instruction is complete with that sum as its result, written at the target.
-/
theorem addWritesExactSum : Obligations.AddWritesExactSum := by
  intro m1 m2 m3 s a b t h1 h2 h3 hmin hmax
  have hv := toInt_ofInt_of_inI64 (v := a.toInt + b.toInt) ⟨hmin, Int.le_sub_one_of_lt hmax⟩
  exact ⟨s.aluDone m1 m2 t _, _, exec_of_completed ⟨a, b, t, _, h1, h2, h3, hv, rfl⟩, hv,
    wroteCell_aluDone .., s.aluDone_q ..⟩

/-- Settles O18: with the product in `i64` the instruction is complete with that product as its result. -/
theorem multiplyWritesExactProduct : Obligations.MultiplyWritesExactProduct := by
  intro m1 m2 m3 s a b t h1 h2 h3 hmin hmax
  have hv := toInt_ofInt_of_inI64 (v := a.toInt * b.toInt) ⟨hmin, Int.le_sub_one_of_lt hmax⟩
  exact ⟨s.aluDone m1 m2 t _, _, exec_of_completed ⟨a, b, t, _, h1, h2, h3, hv, rfl⟩, hv,
    wroteCell_aluDone .., s.aluDone_q ..⟩

/-- The cell of a comparison as a number. -/
theorem toInt_truthCell (b : Bool) : (truthCell b).toInt = if b then 1 else 0 := by
  cases b <;> rfl

theorem isLess_iff (a b : Word) : isLess a b = true ↔ a.toInt < b.toInt := decide_eq_true_iff

theorem isEqual_iff (a b : Word) : isEqual a b = true ↔ a = b :=
  decide_eq_true_iff.trans BitVec.toInt_inj

/-- Settles O19: the result of a comparison is always a cell, 1 exactly if the signed comparison holds. -/
theorem lessThanWritesTruth : Obligations.LessThanWritesTruth := by
  intro m1 m2 m3 s a b t h1 h2 h3
  refine ⟨s.aluDone m1 m2 t _, _, exec_of_completed ⟨a, b, t, h1, h2, h3, rfl⟩, ?_, wroteCell_aluDone ..,
    s.aluDone_q ..⟩
  simp only [toInt_truthCell, isLess_iff]

/-- Settles O20: the result of a comparison is always a cell, 1 exactly if the operands are the same number, so the
same cell. -/
theorem equalsWritesTruth : Obligations.EqualsWritesTruth := by
  intro m1 m2 m3 s a b t h1 h2 h3
  refine ⟨s.aluDone m1 m2 t _, _, exec_of_completed ⟨a, b, t, h1, h2, h3, rfl⟩, ?_, wroteCell_aluDone ..,
    s.aluDone_q ..⟩
  simp only [toInt_truthCell, isEqual_iff]

/-- Settles O25: the completion of Input with the front value, its target and the rest of the channel. -/
theorem inputTakesTheFront : Obligations.InputTakesTheFront := fun _ _ _ s v rest t hq ht =>
  ⟨s.inputDone t v rest, execInput_of_target hq ht, wroteCell_inputDone .., s.inputDone_q ..⟩

/-- Settles O24: the empty channel is the first thing Input looks at. -/
theorem inputPausesOnEmptyChannel : Obligations.InputPausesOnEmptyChannel := fun m1 _ _ _ hq =>
  execInput_of_empty m1 hq

/-- Settles O28: the completion of Output. -/
theorem outputAppendsAndPauses : Obligations.OutputAppendsAndPauses := fun m1 _ _ s v hv =>
  ⟨s.outputDone m1 v, execOutput_of_operand hv, rfl, rfl, rfl, s.outputDone_rb .., wroteNoCell_outputDone ..⟩

/-- Settles O30: the completion of JumpIfTrue, taken or not. -/
theorem jumpIfTrueSetsThePointer : Obligations.JumpIfTrueSetsThePointer := by
  intro m1 m2 m3 s c t h1 h2 ht
  refine ⟨s.jumpDone m1 m2 (if c.toInt ≠ 0 then t.toInt.toNat else s.ptr + 3),
    exec_of_completed ⟨c, t, h1, h2, ?_⟩, rfl, s.jumpDone_rb .., s.jumpDone_st .., s.jumpDone_q ..,
    wroteNoCell_jumpDone ..⟩
  by_cases hc : c.toInt = 0
  · exact .inr ⟨hc, by rw [if_neg (not_not.mpr hc)]⟩
  · exact .inl ⟨hc, ht.resolve_left hc, by rw [if_pos hc]⟩

/-- Settles O31: the completion of JumpIfFalse, taken or not. -/
theorem jumpIfFalseSetsThePointer : Obligations.JumpIfFalseSetsThePointer := by
  intro m1 m2 m3 s c t h1 h2 ht
  refine ⟨s.jumpDone m1 m2 (if c.toInt = 0 then t.toInt.toNat else s.ptr + 3),
    exec_of_completed ⟨c, t, h1, h2, ?_⟩, rfl, s.jumpDone_rb .., s.jumpDone_st .., s.jumpDone_q ..,
    wroteNoCell_jumpDone ..⟩
  by_cases hc : c.toInt = 0
  · exact .inl ⟨hc, ht.resolve_left (not_not.mpr hc), by rw [if_pos hc]⟩
  · exact .inr ⟨hc, by rw [if_neg hc]⟩

/-- Settles O34: with the sum in `i64` the instruction is complete with that sum as the new base. -/
theorem setRelativeBaseAccumulates : Obligations.SetRelativeBaseAccumulates := by
  intro m1 m2 m3 s a h1 hmin hmax
  have hr := toInt_ofInt_of_inI64 (v := s.rb.toInt + a.toInt) ⟨hmin, Int.le_sub_one_of_lt hmax⟩
  exact ⟨s.rebaseDone m1 _, exec_of_completed ⟨a, _, h1, hr, rfl⟩, hr, rfl, s.rebaseDone_st .., s.rebaseDone_q ..,
    wroteNoCell_rebaseDone ..⟩

/-- Settles O35: Halt is the fetch's access and the new execution State; below the length that access grows nothing. -/
theorem haltStops : Obligations.HaltStops := by
  intro m1 m2 m3 s
  refine ⟨(s.grow s.ptr).setSt .stopped, exec_halt m1 m2 m3 s, rfl, rfl, rfl, rfl, wroteNoCell_growAll s [s.ptr],
    fun hlt => ?_⟩
  rw [State.grow, grownLen_of_lt hlt]
  rfl

/-! ## Faults -/

/-- Each of the four ALU instructions is the ALU shape with a result of its own. -/
theorem exec_eq_alu {m1 m2 m3 : Mode} {i : Instr}
    (hi : i ∈ [Instr.add m1 m2 m3, .multiply m1 m2 m3, .lessThan m1 m2 m3, .equals m1 m2 m3]) (s : State) :
    ∃ result, exec i s = alu m1 m2 m3 result s := by
  simp only [List.mem_cons, List.not_mem_nil, or_false] at hi
  obtain rfl | rfl | rfl | rfl := hi
  exacts [⟨_, exec_add ..⟩, ⟨_, exec_multiply ..⟩, ⟨_, exec_lessThan ..⟩, ⟨_, exec_equals ..⟩]

/-- Settles O22: each of the four is the ALU shape, which resolves p1, p2, p3 in this order before its result. -/
theorem aluFaultsInParameterOrder : Obligations.AluFaultsInParameterOrder := by
  intro m1 m2 m3 s f i hi
  obtain ⟨result, hexec⟩ := exec_eq_alu hi s
  rw [hexec]
  exact ⟨alu_of_error1, fun _ h1 => alu_of_error2 h1, fun _ _ h1 h2 => alu_of_error3 h1 h2⟩

/-- Settles O21: the result is checked last, and a sum or a product outside `i64` is the fault recorded. -/
theorem arithmeticOverflowCommitsNothing : Obligations.ArithmeticOverflowCommitsNothing := by
  refine fun m1 m2 m3 s a b t h1 => ⟨fun h2 h3 => ⟨fun hout => ?add, fun hout => ?multiply⟩, fun hout => ?rebase⟩
  case add =>
    rw [exec_add, alu_of_operands h1 h2 h3, checked_of_not_inI64 _ (not_inI64_iff.mpr hout)]
    rfl
  case multiply =>
    rw [exec_multiply, alu_of_operands h1 h2 h3, checked_of_not_inI64 _ (not_inI64_iff.mpr hout)]
    rfl
  case rebase =>
    rw [exec_setRelativeBase, execSetRelativeBase_of_operand h1, checked_of_not_inI64 _ (not_inI64_iff.mpr hout)]
    rfl

/-- Settles O26: the target is resolved before the front value is taken. -/
theorem inputFaultKeepsTheValue : Obligations.InputFaultKeepsTheValue := by
  intro m1 m2 m3 s f hq ht
  obtain ⟨v, rest, hcons⟩ := List.exists_cons_of_ne_nil hq
  exact execInput_of_error hcons ht

/-- Settles O32: a taken jump checks the sign of its target, whichever test took it. -/
theorem negativeJumpTargetFaults : Obligations.NegativeJumpTargetFaults := by
  refine fun m1 m2 m3 s c t h1 h2 ht => ⟨fun hc => ?ifTrue, fun hc => ?ifFalse⟩
  case ifTrue =>
    have htest : isNonzero c = true := decide_eq_true hc
    rw [exec_jumpIfTrue, jumpWhen_of_operands h1 h2, if_pos htest, if_pos ht]
    rfl
  case ifFalse =>
    have htest : isZero c = true := decide_eq_true hc
    rw [exec_jumpIfFalse, jumpWhen_of_operands h1 h2, if_pos htest, if_pos ht]
    rfl

/-- Settles O36: a first parameter that does not resolve is recorded at once, and a jump reads its second in any case.
-/
theorem readFaultsCommitNothing : Obligations.ReadFaultsCommitNothing := by
  refine fun m1 m2 m3 s f => ⟨fun h i hi => ?first, fun c h1 h i hi => ?second⟩
  case first =>
    simp only [List.mem_cons, List.not_mem_nil, or_false] at hi
    obtain rfl | rfl | rfl | rfl := hi
    exacts [(exec_output ..).trans (readFirst_of_error h), execSetRelativeBase_of_error h,
      (exec_jumpIfTrue ..).trans (jumpWhen_of_error1 h), (exec_jumpIfFalse ..).trans (jumpWhen_of_error1 h)]
  case second =>
    simp only [List.mem_cons, List.not_mem_nil, or_false] at hi
    obtain rfl | rfl := hi
    exacts [(exec_jumpIfTrue ..).trans (jumpWhen_of_error2 h1 h), (exec_jumpIfFalse ..).trans (jumpWhen_of_error2 h1 h)]

/-! ## Frames -/

theorem FaultRecordKept.of_faulted {s u : State} (h : Faulted s u) : FaultRecordKept s u := by
  obtain ⟨f, hp, rfl⟩ := h
  exact .inr ⟨f, hp, rfl⟩

/-- A recorded fault changes no other element of the state. -/
theorem Faulted.unchanged {s u : State} (h : Faulted s u) :
    u.rb = s.rb ∧ u.st = s.st ∧ u.q = s.q ∧ u.len = s.len ∧ ∀ x, u.cell x = s.cell x := by
  obtain ⟨f, -, rfl⟩ := h
  exact ⟨rfl, rfl, rfl, rfl, fun _ => rfl⟩

/-- A completed ALU instruction has written one result at its target. -/
theorem Completed.alu_eq {m1 m2 m3 : Mode} {i : Instr} {s u : State} (h : Completed i s u)
    (hi : i ∈ [Instr.add m1 m2 m3, .multiply m1 m2 m3, .lessThan m1 m2 m3, .equals m1 m2 m3]) :
    ∃ t r, s.targetAddr 3 m3 = .ok t ∧ u = s.aluDone m1 m2 t r := by
  simp only [List.mem_cons, List.not_mem_nil, or_false] at hi
  obtain rfl | rfl | rfl | rfl := hi
  · obtain ⟨_, _, t, r, -, -, ht, -, rfl⟩ := h
    exact ⟨t, r, ht, rfl⟩
  · obtain ⟨_, _, t, r, -, -, ht, -, rfl⟩ := h
    exact ⟨t, r, ht, rfl⟩
  · obtain ⟨_, _, t, -, -, ht, rfl⟩ := h
    exact ⟨t, _, ht, rfl⟩
  · obtain ⟨_, _, t, -, -, ht, rfl⟩ := h
    exact ⟨t, _, ht, rfl⟩

/-- Settles O23: the instruction has completed, and wrote its target only, or has recorded a fault, which changes
nothing else. -/
theorem aluFrame : Obligations.AluFrame := by
  intro m1 m2 m3 s u i hi hexec
  obtain hdone | hfault := exec_next hexec
  · have hlen := hdone.memStep.1
    obtain ⟨t, r, ht, rfl⟩ := hdone.alu_eq hi
    obtain ⟨-, hcells, -, -, hrb, hst, hf⟩ := wroteCell_aluDone s m1 m2 t r
    refine ⟨hrb, hst, s.aluDone_q .., .inl hf, hlen, fun t' ht' x hx => ?_, fun f hf => ?_⟩
    · cases ht.symm.trans ht'
      exact hcells x hx
    · cases ht.symm.trans hf
  · obtain ⟨hrb, hst, hq, hlen, hcells⟩ := hfault.unchanged
    exact ⟨hrb, hst, hq, .of_faulted hfault, hlen.ge, fun _ _ x _ => hcells x, fun _ _ => hcells⟩

/-- Settles O27: Input has paused, has completed, and wrote its target only, or has recorded a fault. -/
theorem inputFrame : Obligations.InputFrame := by
  intro m1 m2 m3 s u hexec
  obtain ⟨hq, rfl⟩ | ⟨v, rest, t, hq, ht, rfl⟩ | hfault := or_assoc.mp (exec_next hexec)
  · exact ⟨rfl, .inr ⟨hq, rfl⟩, .inl rfl, .inl rfl, Nat.le_refl _, fun _ _ _ _ => rfl, fun _ _ _ => rfl⟩
  · obtain ⟨-, hcells, -, -, hrb, hst, hf⟩ := wroteCell_inputDone s t v rest
    refine ⟨hrb, .inl hst, .inr (by rw [hq]; rfl), .inl hf, s.len_le_growAll _, fun t' ht' x hx => ?_, fun f hf => ?_⟩
    · cases ht.symm.trans ht'
      exact hcells x hx
    · cases ht.symm.trans hf
  · obtain ⟨hrb, hst, hq, hlen, hcells⟩ := hfault.unchanged
    exact ⟨hrb, .inl hst, .inl hq, .of_faulted hfault, hlen.ge, fun _ _ x _ => hcells x, fun _ _ => hcells⟩

/-- Settles O29: Output has completed, which appends one value, or has recorded a fault. -/
theorem outputFrame : Obligations.OutputFrame := by
  intro m1 m2 m3 s u hexec
  obtain ⟨v, -, rfl⟩ | hfault := exec_next hexec
  · obtain ⟨hcells, -, hf⟩ := wroteNoCell_outputDone s m1 v
    exact ⟨s.outputDone_rb .., .inr rfl, ⟨[v], rfl⟩, .inl hf, s.len_le_growAll _, hcells⟩
  · obtain ⟨hrb, hst, hq, hlen, hcells⟩ := hfault.unchanged
    exact ⟨hrb, .inl hst, by rw [hq], .of_faulted hfault, hlen.ge, hcells⟩

/-- A completed control instruction: no cell and no channel value changes, only SetRelativeBase writes the base, and
only Halt the execution State. -/
theorem Completed.control {m1 m2 m3 : Mode} {i : Instr} {s u : State} (h : Completed i s u)
    (hi : i ∈ [Instr.jumpIfTrue m1 m2 m3, .jumpIfFalse m1 m2 m3, .setRelativeBase m1 m2 m3, .halt m1 m2 m3]) :
    (∃ l, WroteNoCell s u l) ∧ u.q = s.q ∧
      (i ≠ .setRelativeBase m1 m2 m3 → u.rb = s.rb) ∧ (i ≠ .halt m1 m2 m3 → u.st = s.st) := by
  simp only [List.mem_cons, List.not_mem_nil, or_false] at hi
  obtain rfl | rfl | rfl | rfl := hi
  · obtain ⟨_, _, -, -, ⟨-, -, rfl⟩ | ⟨-, rfl⟩⟩ := h <;>
      exact ⟨⟨_, wroteNoCell_jumpDone ..⟩, s.jumpDone_q .., fun _ => s.jumpDone_rb .., fun _ => s.jumpDone_st ..⟩
  · obtain ⟨_, _, -, -, ⟨-, -, rfl⟩ | ⟨-, rfl⟩⟩ := h <;>
      exact ⟨⟨_, wroteNoCell_jumpDone ..⟩, s.jumpDone_q .., fun _ => s.jumpDone_rb .., fun _ => s.jumpDone_st ..⟩
  · obtain ⟨_, r, -, -, rfl⟩ := h
    exact ⟨⟨_, wroteNoCell_rebaseDone ..⟩, s.rebaseDone_q .., fun hne => absurd rfl hne, fun _ => s.rebaseDone_st ..⟩
  · cases h
    exact ⟨⟨_, wroteNoCell_growAll s [s.ptr]⟩, rfl, fun _ => rfl, fun hne => absurd rfl hne⟩

/-- Settles O33: the instruction has completed, writing no cell, or has recorded a fault. -/
theorem controlFrame : Obligations.ControlFrame := by
  intro m1 m2 m3 s u i hi hexec
  obtain hdone | hfault := exec_next hexec
  · obtain ⟨⟨l, hcells, -, hf⟩, hq, hrb, hst⟩ := hdone.control hi
    exact ⟨hcells, hq, .inl hf, hdone.memStep.1, hrb, hst⟩
  · obtain ⟨hrb, hst, hq, hlen, hcells⟩ := hfault.unchanged
    exact ⟨hcells, hq, .of_faulted hfault, hlen.ge, fun _ => hrb, fun _ => hst⟩

end Sys2Proof.Machine
end

section
/-!
PROOFS. The step of spec/43_engine.md section 2: when it is enabled, what it runs or records, and what a completed step
leaves in the base and the pointer and, for self-modifying code, at the next fetch.
-/
namespace Sys2Proof.Machine

/-- An enabled step at a word the decoder accepts is that instruction (R113). -/
theorem step_of_decode_ok {s : State} {i : Instr} (hf : s.fault = none) (hst : s.st = .running)
    (hd : decode (s.cell s.ptr) = .ok i) : step s = exec i s := by
  have hfd : fetchDecode s = .ok i := by
    unfold fetchDecode
    rw [hd]
  unfold step
  rw [hf, hfd]
  exact if_pos hst

theorem decode_of_fetchDecode {s : State} {i : Instr} (h : fetchDecode s = .ok i) :
    decode (s.cell s.ptr) = .ok i := by
  unfold fetchDecode at h
  cases hd : decode (s.cell s.ptr) with
  | ok j =>
    rw [hd] at h
    cases h
    rfl
  | error r =>
    rw [hd] at h
    cases h

/-- Everything a step that answers a next state has done: completed the instruction at the pointer, or recorded a
fault on the state before. -/
theorem step_next_cases {s t : State} (h : step s = .next t) :
    (∃ i, decode (s.cell s.ptr) = .ok i ∧ Completed i s t) ∨ Faulted s t := by
  obtain ⟨-, -, ⟨i, hi, hexec⟩ | ⟨f, -, hp, rfl⟩⟩ := step_next h
  · obtain hdone | hfault := exec_next hexec
    · exact .inl ⟨i, decode_of_fetchDecode hi, hdone⟩
    · exact .inr hfault
  · exact .inr ⟨f, hp, rfl⟩

/-- Settles O37: an enabled step is the decoded instruction. -/
theorem stepRunsDecodedInstruction : Obligations.StepRunsDecodedInstruction :=
  fun _ _ hf hst hd => step_of_decode_ok hf hst hd

/-- Settles O38: an enabled step records the rejection of its word, whichever it is. -/
theorem stepRecordsDecodeFaults : Obligations.StepRecordsDecodeFaults := by
  intro s w hf hst hcell
  subst hcell
  exact ⟨step_of_decode_error hf hst, step_of_decode_error hf hst, step_of_decode_error hf hst,
    fun _ => step_of_decode_error hf hst, fun _ => step_of_decode_error hf hst⟩

theorem step_of_fault {s : State} {f : InstrFault} (h : s.fault = some f) : step s = .fault (.faulted f) := by
  unfold step
  rw [h]

theorem step_of_not_running {s : State} (hf : s.fault = none) (hst : s.st ≠ .running) :
    step s = .fault (.notRunning s.st) := by
  unfold step
  rw [hf]
  exact if_neg hst

/-- Settles O39: an enabled step answers, and each of the two ways not to be enabled has its own stop. -/
theorem stepEnabledExactly : Obligations.StepEnabledExactly := by
  refine fun s => ⟨⟨fun ⟨t, ht⟩ => ?_, fun ⟨hst, hf⟩ => step_of_enabled hf hst⟩, fun f hf => step_of_fault hf,
    fun hf hst => step_of_not_running hf hst⟩
  obtain ⟨hf, hst, -⟩ := step_next ht
  exact ⟨hst, hf⟩

/-! ## A completed step -/

/-- A completed instruction records no fault, and only SetRelativeBase changes the base, by its operand. -/
theorem Completed.fault_and_rb {i : Instr} {s u : State} (h : Completed i s u) :
    u.fault = s.fault ∧ (u.rb = s.rb ∨ ∃ m1 m2 m3 a, i = .setRelativeBase m1 m2 m3 ∧ s.operand 1 m1 = some a ∧
      u.rb.toInt = s.rb.toInt + a.toInt) := by
  cases i with
  | add m1 m2 m3 =>
    obtain ⟨_, _, _, _, -, -, -, -, rfl⟩ := h
    exact ⟨s.aluDone_fault .., .inl (s.aluDone_rb ..)⟩
  | multiply m1 m2 m3 =>
    obtain ⟨_, _, _, _, -, -, -, -, rfl⟩ := h
    exact ⟨s.aluDone_fault .., .inl (s.aluDone_rb ..)⟩
  | input m1 m2 m3 => obtain ⟨-, rfl⟩ | ⟨_, _, _, -, -, rfl⟩ := h <;> exact ⟨rfl, .inl rfl⟩
  | output m1 m2 m3 =>
    obtain ⟨_, -, rfl⟩ := h
    exact ⟨s.growAll_fault _, .inl (s.outputDone_rb ..)⟩
  | jumpIfTrue m1 m2 m3 =>
    obtain ⟨_, _, -, -, ⟨-, -, rfl⟩ | ⟨-, rfl⟩⟩ := h <;> exact ⟨s.growAll_fault _, .inl (s.jumpDone_rb ..)⟩
  | jumpIfFalse m1 m2 m3 =>
    obtain ⟨_, _, -, -, ⟨-, -, rfl⟩ | ⟨-, rfl⟩⟩ := h <;> exact ⟨s.growAll_fault _, .inl (s.jumpDone_rb ..)⟩
  | lessThan m1 m2 m3 =>
    obtain ⟨_, _, _, -, -, -, rfl⟩ := h
    exact ⟨s.aluDone_fault .., .inl (s.aluDone_rb ..)⟩
  | equals m1 m2 m3 =>
    obtain ⟨_, _, _, -, -, -, rfl⟩ := h
    exact ⟨s.aluDone_fault .., .inl (s.aluDone_rb ..)⟩
  | setRelativeBase m1 m2 m3 =>
    obtain ⟨a, r, ha, hr, rfl⟩ := h
    exact ⟨s.growAll_fault _, .inr ⟨m1, m2, m3, a, rfl, ha, hr⟩⟩
  | halt m1 m2 m3 =>
    cases h
    exact ⟨rfl, .inl rfl⟩

/-- Settles O40: a completed instruction records no fault, so a step that ends with one has done nothing but record it.
-/
theorem faultCommitsNothing : Obligations.FaultCommitsNothing := by
  intro s t f hstep hf
  obtain ⟨hnone, hst, -⟩ := step_next hstep
  obtain ⟨i, -, hdone⟩ | ⟨g, hp, rfl⟩ := step_next_cases hstep
  · cases hf.symm.trans (hdone.fault_and_rb.1.trans hnone)
  · cases hf
    exact ⟨rfl, hp, hst⟩

/-- Settles O41: a recorded fault keeps the base, and so does every completed instruction but SetRelativeBase. -/
theorem onlySetRelativeBaseWritesTheBase : Obligations.OnlySetRelativeBaseWritesTheBase := by
  intro s t hstep hne
  obtain ⟨i, hd, hdone⟩ | hfault := step_next_cases hstep
  · obtain hrb | ⟨m1, m2, m3, a, rfl, ha, hr⟩ := hdone.fault_and_rb.2
    · exact absurd hrb hne
    · exact ⟨m1, m2, m3, a, hd, ha, hr⟩
  · exact absurd hfault.unchanged.1 hne

/-- Settles O43: the step has completed its instruction, and each completion says where the pointer is. -/
theorem pointerFollowsInstructionLength : Obligations.PointerFollowsInstructionLength := by
  intro s t i hstep hf hd
  have hdone := completed_of_step hstep hf hd
  cases i with
  | add m1 m2 m3 =>
    obtain ⟨_, _, _, _, -, -, -, -, rfl⟩ := hdone
    rfl
  | multiply m1 m2 m3 =>
    obtain ⟨_, _, _, _, -, -, -, -, rfl⟩ := hdone
    rfl
  | input m1 m2 m3 =>
    obtain ⟨hq, rfl⟩ | ⟨v, rest, u, hq, -, rfl⟩ := hdone
    · exact (if_pos hq).symm
    · exact (if_neg (hq ▸ List.cons_ne_nil v rest)).symm
  | output m1 m2 m3 =>
    obtain ⟨_, -, rfl⟩ := hdone
    rfl
  | jumpIfTrue m1 m2 m3 =>
    obtain ⟨c, v, h1, h2, ⟨hc, -, rfl⟩ | ⟨hc, rfl⟩⟩ := hdone
    · exact ⟨c, v, h1, h2, (if_pos hc).symm⟩
    · exact ⟨c, v, h1, h2, (if_neg (not_not.mpr hc)).symm⟩
  | jumpIfFalse m1 m2 m3 =>
    obtain ⟨c, v, h1, h2, ⟨hc, -, rfl⟩ | ⟨hc, rfl⟩⟩ := hdone
    · exact ⟨c, v, h1, h2, (if_pos hc).symm⟩
    · exact ⟨c, v, h1, h2, (if_neg hc).symm⟩
  | lessThan m1 m2 m3 =>
    obtain ⟨_, _, _, -, -, -, rfl⟩ := hdone
    rfl
  | equals m1 m2 m3 =>
    obtain ⟨_, _, _, -, -, -, rfl⟩ := hdone
    rfl
  | setRelativeBase m1 m2 m3 =>
    obtain ⟨_, _, -, -, rfl⟩ := hdone
    rfl
  | halt m1 m2 m3 =>
    cases hdone
    rfl

/-! ## Self-modifying code -/

/-- The number an ALU instruction of opcode `op` writes for operands `a` and `b` (spec/40_arith.md). -/
def aluNumber (op : Opcode) (a b : Word) : Int :=
  match op with
  | .add => a.toInt + b.toInt
  | .multiply => a.toInt * b.toInt
  | .lessThan => if a.toInt < b.toInt then 1 else 0
  | _ => if a = b then 1 else 0

/-- A completed ALU instruction has written that number. -/
theorem Completed.alu_eq_of_operands {m1 m2 m3 : Mode} {i : Instr} {s u : State} {a b : Word} {t : Nat}
    (h : Completed i s u)
    (hi : i ∈ [Instr.add m1 m2 m3, .multiply m1 m2 m3, .lessThan m1 m2 m3, .equals m1 m2 m3])
    (ha : s.operand 1 m1 = some a) (hb : s.operand 2 m2 = some b) (ht : s.targetAddr 3 m3 = .ok t) :
    ∃ r : Word, r.toInt = aluNumber i.opcode a b ∧ u = s.aluDone m1 m2 t r := by
  simp only [List.mem_cons, List.not_mem_nil, or_false] at hi
  obtain rfl | rfl | rfl | rfl := hi
  · obtain ⟨a', b', t', r, ha', hb', ht', hr, rfl⟩ := h
    cases ha.symm.trans ha'; cases hb.symm.trans hb'; cases ht.symm.trans ht'
    exact ⟨r, hr, rfl⟩
  · obtain ⟨a', b', t', r, ha', hb', ht', hr, rfl⟩ := h
    cases ha.symm.trans ha'; cases hb.symm.trans hb'; cases ht.symm.trans ht'
    exact ⟨r, hr, rfl⟩
  · obtain ⟨a', b', t', ha', hb', ht', rfl⟩ := h
    cases ha.symm.trans ha'; cases hb.symm.trans hb'; cases ht.symm.trans ht'
    exact ⟨_, by simp only [toInt_truthCell, isLess_iff, Instr.opcode, aluNumber], rfl⟩
  · obtain ⟨a', b', t', ha', hb', ht', rfl⟩ := h
    cases ha.symm.trans ha'; cases hb.symm.trans hb'; cases ht.symm.trans ht'
    exact ⟨_, by simp only [toInt_truthCell, isEqual_iff, Instr.opcode, aluNumber], rfl⟩

/-- Settles O44: the completed instruction has put `w` into the cell the pointer is at, in a Running state without a
fault; what the next step does with it is the fetch. -/
theorem writtenCellIsFetchedNext : Obligations.WrittenCellIsFetchedNext := by
  intro s t i m1 m2 m3 w hinv hstep hf hd hwrites
  obtain ⟨-, hst, -⟩ := step_next hstep
  have hdone := completed_of_step hstep hf hd
  have hnext : t.cell t.ptr = w ∧ t.st = .running := by
    obtain ⟨hi, ht, a, b, ha, hb, hw⟩ | ⟨rfl, ht, hq⟩ := hwrites
    · obtain ⟨r, hr, rfl⟩ := hdone.alu_eq_of_operands hi ha hb ht
      obtain rfl : r = w := BitVec.eq_of_toInt_eq (hr.trans hw.symm)
      exact ⟨(wroteCell_aluDone ..).1 hinv.1, (s.aluDone_st ..).trans hst⟩
    · obtain ⟨hq', -⟩ | ⟨v, rest, t', hq', ht', rfl⟩ := hdone
      · rw [hq'] at hq; cases hq
      · rw [hq'] at hq
        cases hq
        cases ht.symm.trans ht'
        exact ⟨(wroteCell_inputDone ..).1 hinv.1, (s.inputDone_st ..).trans hst⟩
  obtain ⟨hcell, hrun⟩ := hnext
  subst hcell
  exact ⟨rfl, hrun, fun j hj => step_of_decode_ok hf hrun hj, fun r hr => step_of_decode_error hf hrun hr⟩

end Sys2Proof.Machine
end

section
/-!
PROOFS. Growth is unobservable (spec/20_memory.md R44): two states that differ only in the memory length do the same,
but for that length.
-/
namespace Sys2Proof.Machine

theorem eq_setLen_of_forgetLen_eq {s t : State} (h : t.forgetLen = s.forgetLen) : t = s.setLen t.len := by
  have hlen : t.forgetLen.setLen t.len = s.forgetLen.setLen t.len := by rw [h]
  exact hlen

/-- A part of an instruction that answers the same, but for the length, whatever the length is. -/
def LenBlind (body : State → Except InstrFault State) : Prop :=
  ∀ (c : State) (k : Nat), (body (c.setLen k)).map State.forgetLen = (body c).map State.forgetLen

/-- The accesses of a read parameter are made, and its value read, at any length. -/
theorem lenBlind_readParam {i : Nat} {m : Mode} {rest : Word × State → Except InstrFault State}
    (hrest : ∀ v, LenBlind fun c => rest (v, c)) : LenBlind fun c => readParam i m c >>= rest := by
  intro c k
  simp only [readParam_eq, State.setLen_readAddr]
  cases c.readAddr i m with
  | error f => rfl
  | ok addr =>
    cases addr with
    | none => exact hrest _ (c.grow (c.ptr + i)) _
    | some a => exact hrest _ ((c.grow (c.ptr + i)).grow a) _

theorem lenBlind_writeTarget {i : Nat} {m : Mode} {rest : Nat × State → Except InstrFault State}
    (hrest : ∀ t, LenBlind fun c => rest (t, c)) : LenBlind fun c => writeTarget i m c >>= rest := by
  intro c k
  simp only [writeTarget_eq, State.setLen_targetAddr]
  cases c.targetAddr i m with
  | error f => rfl
  | ok t => exact hrest t (c.grow (c.ptr + i)) _

/-- The transaction of such a body, and the fault it records, do not depend on the length. -/
theorem transact_setLen {body : State → Except InstrFault State} (hbody : LenBlind body) (s : State) (k : Nat) :
    mapNext State.forgetLen (transact (s.setLen k) body) = mapNext State.forgetLen (transact s body) := by
  have h : (body ((s.setLen k).grow s.ptr)).map State.forgetLen = (body (s.grow s.ptr)).map State.forgetLen :=
    hbody (s.grow s.ptr) _
  unfold transact
  rw [State.setLen_ptr]
  cases h1 : body ((s.setLen k).grow s.ptr) with
  | error f =>
    rw [h1] at h
    cases h2 : body (s.grow s.ptr) with
    | error g =>
      rw [h2] at h
      cases h
      rfl
    | ok u => rw [h2] at h; cases h
  | ok u' =>
    rw [h1] at h
    cases h2 : body (s.grow s.ptr) with
    | error g => rw [h2] at h; cases h
    | ok u =>
      rw [h2] at h
      exact congrArg Host.Outcome.next (Except.ok.inj h)

theorem alu_setLen (m1 m2 m3 : Mode) (result : Word → Word → Except InstrFault Word) (s : State) (k : Nat) :
    mapNext State.forgetLen (alu m1 m2 m3 result (s.setLen k)) = mapNext State.forgetLen (alu m1 m2 m3 result s) := by
  unfold alu readFirst
  refine transact_setLen ?_ s k
  refine lenBlind_readParam fun a => ?_
  refine lenBlind_readParam fun b => ?_
  refine lenBlind_writeTarget fun t => ?_
  intro c k
  cases result a b <;> rfl

theorem jumpWhen_setLen (test : Word → Bool) (m1 m2 : Mode) (s : State) (k : Nat) :
    mapNext State.forgetLen (jumpWhen test m1 m2 (s.setLen k)) = mapNext State.forgetLen (jumpWhen test m1 m2 s) := by
  unfold jumpWhen readFirst
  refine transact_setLen ?_ s k
  refine lenBlind_readParam fun v => ?_
  refine lenBlind_readParam fun t => ?_
  intro c k
  cases test v with
  | false => rfl
  | true =>
    by_cases ht : t.toInt < 0
    · simp only [if_true, jumpTo, if_pos ht]
      rfl
    · simp only [if_true, jumpTo, if_neg ht]
      rfl

theorem execInput_setLen (m1 : Mode) (s : State) (k : Nat) :
    mapNext State.forgetLen (execInput m1 (s.setLen k)) = mapNext State.forgetLen (execInput m1 s) := by
  unfold execInput State.popFront
  rw [State.setLen_q]
  cases s.q with
  | nil => rfl
  | cons v rest => exact transact_setLen (lenBlind_writeTarget fun t c k => rfl) s k

/-- An instruction's outcome, but for the length, does not depend on the length. -/
theorem exec_setLen (i : Instr) (s : State) (k : Nat) :
    mapNext State.forgetLen (exec i (s.setLen k)) = mapNext State.forgetLen (exec i s) := by
  cases i with
  | add m1 m2 m3 =>
    rw [exec_add, exec_add]
    exact alu_setLen m1 m2 m3 _ s k
  | multiply m1 m2 m3 =>
    rw [exec_multiply, exec_multiply]
    exact alu_setLen m1 m2 m3 _ s k
  | input m1 m2 m3 => exact execInput_setLen m1 s k
  | output m1 m2 m3 => exact transact_setLen (lenBlind_readParam fun v c k => rfl) s k
  | jumpIfTrue m1 m2 m3 => exact jumpWhen_setLen _ m1 m2 s k
  | jumpIfFalse m1 m2 m3 => exact jumpWhen_setLen _ m1 m2 s k
  | lessThan m1 m2 m3 =>
    rw [exec_lessThan, exec_lessThan]
    exact alu_setLen m1 m2 m3 _ s k
  | equals m1 m2 m3 =>
    rw [exec_equals, exec_equals]
    exact alu_setLen m1 m2 m3 _ s k
  | setRelativeBase m1 m2 m3 =>
    refine transact_setLen (lenBlind_readParam fun a c k => ?_) s k
    dsimp only [State.setLen_ptr, State.setLen_rb]
    cases checked c.ptr (c.rb.toInt + a.toInt) <;> rfl
  | halt m1 m2 m3 => rfl

theorem step_setLen (s : State) (k : Nat) :
    mapNext State.forgetLen (step (s.setLen k)) = mapNext State.forgetLen (step s) := by
  have hfd : fetchDecode (s.setLen k) = fetchDecode s := rfl
  unfold step
  rw [State.setLen_fault, State.setLen_st, hfd]
  cases s.fault with
  | some f => rfl
  | none =>
    by_cases hst : s.st = .running
    · simp only [if_pos hst]
      cases fetchDecode s with
      | ok i => exact exec_setLen i s k
      | error f => rfl
    · simp only [if_neg hst]

/-- The next states of two such states differ only in the length again. -/
theorem step_setLen_next {s t : State} (h : step s = .next t) (k : Nat) :
    ∃ k', step (s.setLen k) = .next (t.setLen k') := by
  have hstep := step_setLen s k
  rw [h] at hstep
  cases h' : step (s.setLen k) with
  | next t' =>
    rw [h'] at hstep
    exact ⟨t'.len, congrArg _ (eq_setLen_of_forgetLen_eq (Host.Outcome.next.inj hstep))⟩
  | fault r => rw [h'] at hstep; cases hstep
  | refused r => rw [h'] at hstep; cases hstep

/-! ## Runs and host operations -/

/-- Two answers that are absent, or states that differ only in the length. -/
def SameButLen (x y : Option State) : Prop := x.map State.forgetLen = y.map State.forgetLen

theorem SameButLen.cases {x y : Option State} (h : SameButLen x y) :
    (x = none ∧ y = none) ∨ ∃ t k, x = some (t.setLen k) ∧ y = some t := by
  cases x with
  | none =>
    cases y with
    | none => exact .inl ⟨rfl, rfl⟩
    | some t => cases h
  | some u =>
    cases y with
    | none => cases h
    | some t => exact .inr ⟨t, u.len, congrArg _ (eq_setLen_of_forgetLen_eq (Option.some.inj h)), rfl⟩

theorem runLoop_setLen (n : Nat) (s : State) (k : Nat) : SameButLen (runLoop n (s.setLen k)) (runLoop n s) := by
  induction n generalizing s k with
  | zero =>
    by_cases he : s.enabled = true
    · rw [runLoop_zero_of_enabled he, runLoop_zero_of_enabled (s := s.setLen k) he]
      rfl
    · rw [runLoop_of_not_enabled he, runLoop_of_not_enabled (s := s.setLen k) he]
      rfl
  | succ n ih =>
    by_cases he : s.enabled = true
    · obtain ⟨t, ht⟩ := enabled_step he
      obtain ⟨k', ht'⟩ := step_setLen_next ht k
      rw [runLoop_of_enabled he ht, runLoop_of_enabled (s := s.setLen k) he ht']
      exact ih t k'
    · rw [runLoop_of_not_enabled he, runLoop_of_not_enabled (s := s.setLen k) he]
      rfl

theorem run_setLen (n : Nat) (s : State) (k : Nat) : SameButLen (run n (s.setLen k)) (run n s) := by
  by_cases hdone : s.fault ≠ none ∨ s.st = .stopped
  · rw [run_of_done n hdone, run_of_done (s := s.setLen k) n hdone]
    rfl
  · rw [run, run, if_neg hdone, if_neg (show ¬((s.setLen k).fault ≠ none ∨ (s.setLen k).st = .stopped) from hdone)]
    exact runLoop_setLen n (s.setSt .running) k

theorem haltLoop_setLen (n j : Nat) (s : State) (k : Nat) :
    SameButLen (haltLoop n j (s.setLen k)) (haltLoop n j s) := by
  induction j generalizing s k with
  | zero => rfl
  | succ j ih =>
    obtain ⟨h', h⟩ | ⟨t, k', h', h⟩ := (run_setLen n s k).cases
    · rw [haltLoop, haltLoop, h', h]
      rfl
    · have hret : (t.setLen k').mustReturn = t.mustReturn := rfl
      rw [haltLoop, haltLoop, h', h]
      dsimp only
      rw [hret]
      cases t.mustReturn with
      | true => rfl
      | false => exact ih t k'

/-- A host operation's reply and, but for the length, the instance after it do not depend on the length. -/
theorem hostOp_setLen (n : Nat) (op : HostOp) (s : State) (k : Nat) :
    (hostOp n op (s.setLen k)).map (fun r => (r.1, r.2.forgetLen)) =
      (hostOp n op s).map (fun r => (r.1, r.2.forgetLen)) := by
  cases op with
  | run =>
    rw [hostOp, hostOp]
    obtain ⟨h', h⟩ | ⟨t, k', h', h⟩ := (run_setLen n s k).cases
    · rw [h', h]
    · rw [h', h]
      rfl
  | runUntilHalted =>
    rw [hostOp, hostOp, runUntilHalted, runUntilHalted]
    obtain ⟨h', h⟩ | ⟨t, k', h', h⟩ := (haltLoop_setLen n n s k).cases
    · rw [h', h]
    · rw [h', h]
      rfl
  | enqueue v => rfl
  | dequeue =>
    cases hq : s.q with
    | nil =>
      rw [hostOp_dequeue_of_nil n hq, hostOp_dequeue_of_nil (s := s.setLen k) n hq]
      rfl
    | cons v rest =>
      rw [hostOp_dequeue_of_cons n hq, hostOp_dequeue_of_cons (s := s.setLen k) n hq]
      rfl
  | peek =>
    cases hq : s.q with
    | nil =>
      rw [hostOp_peek_of_nil n hq, hostOp_peek_of_nil (s := s.setLen k) n hq]
      rfl
    | cons v rest =>
      rw [hostOp_peek_of_cons n hq, hostOp_peek_of_cons (s := s.setLen k) n hq]
      rfl
  | memRead a =>
    by_cases ha : a < 0
    · rw [hostOp_memRead_of_neg n s ha, hostOp_memRead_of_neg n _ ha]
      rfl
    · rw [hostOp_memRead_of_nonneg n s ha, hostOp_memRead_of_nonneg n _ ha]
      rfl
  | memWrite a v =>
    by_cases ha : a < 0
    · rw [hostOp_memWrite_of_neg n s v ha, hostOp_memWrite_of_neg n _ v ha]
      rfl
    · rw [hostOp_memWrite_of_nonneg n s v ha, hostOp_memWrite_of_nonneg n _ v ha]
      rfl
  | readState => rfl

/-- Settles O14: by the step's blindness to the length, lifted to the runs and the host's operations, and clone's two
cases. -/
theorem growthIsUnobservable : Obligations.GrowthIsUnobservable := by
  refine fun s k => ⟨step_setLen s k, fun n op => hostOp_setLen n op s k, ?_⟩
  cases hf : s.fault with
  | none =>
    rw [clone_of_no_fault hf, clone_of_no_fault (s := s.setLen k) hf]
    rfl
  | some f =>
    rw [clone_of_fault hf, clone_of_fault (s := s.setLen k) hf]

end Sys2Proof.Machine
end

section
/-!
PROOFS. The run contracts of spec/43_engine.md sections 3 and 4: what a run follows and when it returns, that its bound
does not matter, and that one run_until_halted on pre-loaded inputs does what a driver does that calls run again and
again (R120).
-/
namespace Sys2Proof.Machine

/-! ## The loop and its bound -/

theorem enabled_of_step {s t : State} (h : step s = .next t) : s.enabled = true := by
  obtain ⟨hf, hst, -⟩ := step_next h
  exact s.enabled_iff.mpr ⟨hst, hf⟩

theorem State.stAfter_ne_initialized (s : State) (op : Opcode) : s.stAfter op ≠ .initialized := by
  intro h
  cases op with
  | input =>
    simp only [State.stAfter] at h
    split at h <;> cases h
  | _ => cases h

theorem step_st_ne_initialized {s t : State} (h : step s = .next t) : t.st ≠ .initialized := by
  obtain ⟨-, hst, -⟩ := step_next h
  obtain ⟨i, -, hdone⟩ | hfault := step_next_cases h
  · rw [hdone.st_eq_stAfter hst]
    exact s.stAfter_ne_initialized _
  · rw [hfault.unchanged.2.1, hst]
    nofun

/-- A run that ends without a fault ends Paused, waiting or Stopped. -/
theorem run_st {n : Nat} {s t : State} (h : run n s = some t) (hf : t.fault = none) :
    t.st = .paused ∨ t.st = .pausedWaitingForInput ∨ t.st = .stopped := by
  obtain ⟨hdone, rfl⟩ | ⟨-, -, hloop⟩ := run_cases h
  · exact .inr (.inr (hdone.resolve_left fun hne => hne hf))
  · obtain ⟨hinit, hne⟩ := runLoop_induction (P := fun u => u.st ≠ .initialized)
      (fun _ _ _ h => step_st_ne_initialized h)
      (show ExecState.running ≠ .initialized from nofun) hloop
    have hrun : t.st ≠ .running := settled_of_not_enabled hne hf
    cases hst : t.st <;> simp_all

/-- Settles O45: the loop's two cases, and a run without a fault ends in a state that is not Running and never
Initialized. -/
theorem runFollowsSteps : Obligations.RunFollowsSteps := by
  refine ⟨fun n s t h => runLoop_of_enabled (enabled_of_step h) h, fun n s h => runLoop_of_not_enabled fun he => ?_,
    fun n s t h hf => run_st h hf⟩
  obtain ⟨hst, hf⟩ := s.enabled_iff.mp he
  exact h.elim (fun hne => hne hst) (fun hne => hne hf)

theorem run_mono {n n' : Nat} {s t : State} (h : run n s = some t) (hle : n ≤ n') : run n' s = some t := by
  obtain ⟨hdone, rfl⟩ | ⟨hf, hst, hloop⟩ := run_cases h
  · exact run_of_done n' hdone
  · rw [run_of_live n' hf hst, ← Nat.add_sub_cancel' hle]
    exact runLoop_mono hloop (n' - n)

theorem haltLoop_succ_of_mustReturn {n : Nat} {s t : State} (k : Nat) (h : run n s = some t)
    (hret : t.mustReturn = true) :
    haltLoop n (k + 1) s = some t := by
  rw [haltLoop, h]
  exact if_pos hret

theorem haltLoop_succ_of_resume {n : Nat} {s t : State} (k : Nat) (h : run n s = some t)
    (hret : t.mustReturn = false) :
    haltLoop n (k + 1) s = haltLoop n k t := by
  rw [haltLoop, h]
  exact if_neg (by rw [hret]; nofun)

/-- A greater number of runs, each with a greater bound, gives the same outcome. -/
theorem haltLoop_mono {n n' k k' : Nat} {s t : State} (h : haltLoop n k s = some t) (hn : n ≤ n') (hk : k ≤ k') :
    haltLoop n' k' s = some t := by
  induction k generalizing s k' with
  | zero => cases h
  | succ k ih =>
    obtain ⟨j, rfl⟩ := Nat.exists_eq_add_one_of_ne_zero (show k' ≠ 0 by omega)
    cases hrun : run n s with
    | none =>
      rw [haltLoop, hrun] at h
      cases h
    | some u =>
      have hrun' := run_mono hrun hn
      cases hret : u.mustReturn with
      | true =>
        rw [haltLoop_succ_of_mustReturn k hrun hret] at h
        rw [haltLoop_succ_of_mustReturn j hrun' hret]
        exact h
      | false =>
        rw [haltLoop_succ_of_resume k hrun hret] at h
        rw [haltLoop_succ_of_resume j hrun' hret]
        exact ih h (by omega)

/-- Settles O46: a greater bound gives the same outcome, for a run and for the loop of runs. -/
theorem runOutcomeIsUnique : Obligations.RunOutcomeIsUnique :=
  fun _ _ _ _ hle => ⟨fun h => run_mono h hle, fun h => haltLoop_mono h hle hle⟩

theorem mustReturn_iff {s : State} :
    s.mustReturn = true ↔ s.fault ≠ none ∨ s.st = .stopped ∨ s.st = .pausedWaitingForInput := by
  simp [State.mustReturn, or_assoc]

/-- run_until_halted goes on from a run that ended without having to return. -/
theorem runUntilHalted_of_resume {n k : Nat} {s t u : State} (h : run n s = some t) (hret : t.mustReturn = false)
    (hu : runUntilHalted k t = some u) : runUntilHalted (n + k + 1) s = some u := by
  rw [runUntilHalted, haltLoop_succ_of_resume (n + k) (run_mono h (by omega)) hret]
  exact haltLoop_mono hu (by omega) (by omega)

theorem runUntilHalted_of_mustReturn {n : Nat} {s t : State} (h : run n s = some t) (hret : t.mustReturn = true) :
    runUntilHalted (n + 1) s = some t :=
  haltLoop_succ_of_mustReturn n (run_mono h (Nat.le_succ n)) hret

theorem mustReturn_of_runUntilHalted {n : Nat} {s t : State} (h : runUntilHalted n s = some t) :
    t.mustReturn = true :=
  (haltLoop_induction (P := fun _ => True) (fun _ _ _ _ => trivial) (fun _ _ => trivial) trivial h).2

theorem not_mustReturn_of_paused {s : State} (hf : s.fault = none) (hst : s.st = .paused) : s.mustReturn = false := by
  simp [State.mustReturn, hf, hst]

/-- Settles O47: a run that ends Paused is followed by the next, any other is returned, and only such are. -/
theorem runUntilHaltedResumes : Obligations.RunUntilHaltedResumes := by
  refine ⟨fun n k s t u h hf hst hu => runUntilHalted_of_resume h (not_mustReturn_of_paused hf hst) hu,
    fun n s t h hret => runUntilHalted_of_mustReturn h (mustReturn_iff.mpr hret), fun k s u h hf => ?_⟩
  exact (mustReturn_iff.mp (mustReturn_of_runUntilHalted h)).resolve_left fun hne => hne hf

/-- Settles O49: a run leaves such an instance alone, and run_until_halted returns after that run. -/
theorem runOnStoppedOrFaultedChangesNothing : Obligations.RunOnStoppedOrFaultedChangesNothing := by
  intro n s h
  have hrun (m : Nat) : run m s = some s := run_of_done m h.symm
  refine ⟨hrun n, runUntilHalted_of_mustReturn (hrun n) (mustReturn_iff.mpr ?_)⟩
  exact h.elim (fun hst => .inr (.inl hst)) .inl

theorem runLoop_of_self_step {s : State} (h : step s = .next s) (n : Nat) : runLoop n s = none := by
  have he := enabled_of_step h
  induction n with
  | zero => exact runLoop_zero_of_enabled he
  | succ n ih => rw [runLoop_of_enabled he h, ih]

/-- Settles O48: the loop goes round for as long as its bound lasts. -/
theorem selfLoopNeverReturns : Obligations.SelfLoopNeverReturns := by
  intro s h
  obtain ⟨hf, hst, -⟩ := step_next h
  have hentry : s.setSt .running = s := by rw [← hst]; rfl
  have hrun (n : Nat) : run n s = none := by
    rw [run_of_live n hf (hst ▸ nofun), hentry, runLoop_of_self_step h n]
  refine ⟨hrun, fun n => ?_⟩
  cases n with
  | zero => rfl
  | succ n => rw [runUntilHalted, haltLoop, hrun]


/-! ## What run_until_halted returns -/

/-- `run_until_halted` returns `u` within some bound. -/
def Returns (s u : State) : Prop := ∃ n, runUntilHalted n s = some u

theorem returns_iff {s u : State} :
    Returns s u ↔ ∃ n t, run n s = some t ∧ (t.mustReturn = true ∧ t = u ∨ t.mustReturn = false ∧ Returns t u) := by
  constructor
  · rintro ⟨n, h⟩
    cases n with
    | zero => cases h
    | succ k =>
      rw [runUntilHalted] at h
      cases hrun : run (k + 1) s with
      | none =>
        rw [haltLoop, hrun] at h
        cases h
      | some t =>
        refine ⟨k + 1, t, hrun, ?_⟩
        cases hret : t.mustReturn with
        | true =>
          rw [haltLoop_succ_of_mustReturn k hrun hret] at h
          exact .inl ⟨rfl, Option.some.inj h⟩
        | false =>
          rw [haltLoop_succ_of_resume k hrun hret] at h
          exact .inr ⟨rfl, k + 1, haltLoop_mono h (Nat.le_refl _) (Nat.le_succ k)⟩
  · rintro ⟨n, t, hrun, ⟨hret, rfl⟩ | ⟨hret, k, hk⟩⟩
    · exact ⟨n + 1, runUntilHalted_of_mustReturn hrun hret⟩
    · exact ⟨n + k + 1, runUntilHalted_of_resume hrun hret hk⟩

theorem returns_of_stopped {s : State} (h : s.st = .stopped) : Returns s s :=
  ⟨1, (runOnStoppedOrFaultedChangesNothing 0 s (.inl h)).2⟩

/-- A live instance returns what it returns from any other live execution State: a run enters Running anyway. -/
theorem Returns.of_setSt {s u : State} {x : ExecState} (h : Returns (s.setSt x) u) (hx : x ≠ .stopped)
    (hf : s.fault = none) (hs : s.st ≠ .stopped) : Returns s u := by
  obtain ⟨n, hn⟩ := h
  have hrun : run n (s.setSt x) = run n s := by
    rw [run_of_live n hf hs, run_of_live (s := s.setSt x) n hf hx]
    rfl
  exact ⟨n, (haltLoop_congr hrun n).symm.trans hn⟩

/-- A step that does not wait for input leads to what its next state returns. -/
theorem Returns.of_step {s t u : State} (hu : Returns t u) (h : step s = .next t) (hf : t.fault = none)
    (hw : t.st ≠ .pausedWaitingForInput) : Returns s u := by
  have he := enabled_of_step h
  obtain ⟨hfs, hst, -⟩ := step_next h
  have hrun (n : Nat) : run (n + 1) s = runLoop n t := by
    rw [run_of_live (n + 1) hfs (hst ▸ nofun), ← runLoop_of_enabled he h, ← hst]
    rfl
  by_cases ht : t.st = .running
  · obtain ⟨n, x, hx, hnext⟩ := returns_iff.mp hu
    refine returns_iff.mpr ⟨n + 1, x, ?_, hnext⟩
    rw [hrun, ← hx, run_of_live n hf (ht ▸ nofun), ← ht]
    rfl
  · have hrun1 : run 1 s = some t := (hrun 0).trans (runLoop_of_not_enabled fun he => ht (t.enabled_iff.mp he).1)
    refine returns_iff.mpr ⟨1, t, hrun1, ?_⟩
    cases hret : t.mustReturn with
    | false => exact .inr ⟨rfl, hu⟩
    | true =>
      have hstop : t.st = .stopped :=
        ((mustReturn_iff.mp hret).resolve_left fun hne => hne hf).resolve_right hw
      obtain ⟨n, hn⟩ := hu
      exact .inl ⟨rfl, (runUntilHalted_of_stopped hstop hn).symm⟩

/-! ## Instructions and the values behind them in the channel -/

theorem State.growAll_setQ (s : State) (l : List Nat) (q : List Word) :
    (s.setQ q).growAll l = (s.growAll l).setQ q := by
  unfold State.growAll
  induction l generalizing s with
  | nil => rfl
  | cons a l ih => exact ih (s.grow a)

@[simp] theorem State.setQ_operand (s : State) (i : Nat) (m : Mode) (q : List Word) :
    (s.setQ q).operand i m = s.operand i m := by
  cases m <;> rfl

@[simp] theorem State.setQ_readAccesses (s : State) (i : Nat) (m : Mode) (q : List Word) :
    (s.setQ q).readAccesses i m = s.readAccesses i m := by
  cases m <;> rfl

@[simp] theorem State.setQ_targetAddr (s : State) (i : Nat) (m : Mode) (q : List Word) :
    (s.setQ q).targetAddr i m = s.targetAddr i m := by
  cases m <;> rfl

theorem State.aluDone_setQ (s : State) (m1 m2 : Mode) (t : Nat) (r : Word) (q : List Word) :
    (s.setQ q).aluDone m1 m2 t r = (s.aluDone m1 m2 t r).setQ q := by
  simp only [State.aluDone, State.aluAccesses, State.setQ_readAccesses, State.setQ_ptr, State.growAll_setQ]
  rfl

theorem State.jumpDone_setQ (s : State) (m1 m2 : Mode) (p : Nat) (q : List Word) :
    (s.setQ q).jumpDone m1 m2 p = (s.jumpDone m1 m2 p).setQ q := by
  simp only [State.jumpDone, State.jumpAccesses, State.setQ_readAccesses, State.setQ_ptr, State.growAll_setQ]
  rfl

theorem State.rebaseDone_setQ (s : State) (m1 : Mode) (r : Word) (q : List Word) :
    (s.setQ q).rebaseDone m1 r = (s.rebaseDone m1 r).setQ q := by
  simp only [State.rebaseDone, State.readOneAccesses, State.setQ_readAccesses, State.setQ_ptr, State.growAll_setQ]
  rfl

theorem State.outputDone_setQ (s : State) (m1 : Mode) (v : Word) (q : List Word) :
    (s.setQ q).outputDone m1 v = (s.outputDone m1 v).setQ (q ++ [v]) := by
  simp only [State.outputDone, State.readOneAccesses, State.setQ_readAccesses, State.setQ_ptr, State.growAll_setQ]
  rfl

/-- An instruction other than Input, completed on an empty channel, completes alike behind any values: what it puts
into the channel stands after them. -/
theorem Completed.behind {i : Instr} {s u : State} (h : Completed i s u) (hi : i.opcode ≠ .input) (hq : s.q = [])
    (rest : List Word) : Completed i (s.setQ rest) (u.setQ (rest ++ u.q)) := by
  cases i with
  | add m1 m2 m3 =>
    obtain ⟨a, b, t, r, h1, h2, h3, hr, rfl⟩ := h
    exact ⟨a, b, t, r, by simpa using h1, by simpa using h2, by simpa using h3, hr,
      by simp [State.aluDone_setQ, hq]⟩
  | multiply m1 m2 m3 =>
    obtain ⟨a, b, t, r, h1, h2, h3, hr, rfl⟩ := h
    exact ⟨a, b, t, r, by simpa using h1, by simpa using h2, by simpa using h3, hr,
      by simp [State.aluDone_setQ, hq]⟩
  | input m1 m2 m3 => exact absurd rfl hi
  | output m1 m2 m3 =>
    obtain ⟨v, hv, rfl⟩ := h
    exact ⟨v, by simpa using hv, by simp [State.outputDone_setQ, hq]⟩
  | jumpIfTrue m1 m2 m3 =>
    obtain ⟨c, t, h1, h2, ⟨hc, ht, rfl⟩ | ⟨hc, rfl⟩⟩ := h
    · exact ⟨c, t, by simpa using h1, by simpa using h2, .inl ⟨hc, ht, by simp [State.jumpDone_setQ, hq]⟩⟩
    · exact ⟨c, t, by simpa using h1, by simpa using h2, .inr ⟨hc, by simp [State.jumpDone_setQ, hq]⟩⟩
  | jumpIfFalse m1 m2 m3 =>
    obtain ⟨c, t, h1, h2, ⟨hc, ht, rfl⟩ | ⟨hc, rfl⟩⟩ := h
    · exact ⟨c, t, by simpa using h1, by simpa using h2, .inl ⟨hc, ht, by simp [State.jumpDone_setQ, hq]⟩⟩
    · exact ⟨c, t, by simpa using h1, by simpa using h2, .inr ⟨hc, by simp [State.jumpDone_setQ, hq]⟩⟩
  | lessThan m1 m2 m3 =>
    obtain ⟨a, b, t, h1, h2, h3, rfl⟩ := h
    exact ⟨a, b, t, by simpa using h1, by simpa using h2, by simpa using h3, by simp [State.aluDone_setQ, hq]⟩
  | equals m1 m2 m3 =>
    obtain ⟨a, b, t, h1, h2, h3, rfl⟩ := h
    exact ⟨a, b, t, by simpa using h1, by simpa using h2, by simpa using h3, by simp [State.aluDone_setQ, hq]⟩
  | setRelativeBase m1 m2 m3 =>
    obtain ⟨a, r, h1, hr, rfl⟩ := h
    exact ⟨a, r, by simpa using h1, hr, by simp [State.rebaseDone_setQ, hq]⟩
  | halt m1 m2 m3 =>
    cases h
    have hrest : rest ++ s.q = rest := by rw [hq, List.append_nil]
    exact congrArg ((s.grow s.ptr).setSt .stopped).setQ hrest

/-- An instruction that completes on an empty channel and goes on Running has left it empty. -/
theorem Completed.q_eq_nil {i : Instr} {s u : State} (h : Completed i s u) (hst : u.st = .running) (hq : s.q = []) :
    u.q = [] := by
  have hexec := exec_of_completed h
  have halu (m1 m2 m3 : Mode)
      (hi : i ∈ [Instr.add m1 m2 m3, .multiply m1 m2 m3, .lessThan m1 m2 m3, .equals m1 m2 m3]) : u.q = [] := by
    obtain ⟨-, -, hkeep, -⟩ := aluFrame m1 m2 m3 s u i hi hexec
    rw [hkeep, hq]
  have hcontrol (m1 m2 m3 : Mode)
      (hi : i ∈ [Instr.jumpIfTrue m1 m2 m3, .jumpIfFalse m1 m2 m3, .setRelativeBase m1 m2 m3, .halt m1 m2 m3]) :
      u.q = [] := by
    obtain ⟨-, hkeep, -⟩ := controlFrame m1 m2 m3 s u i hi hexec
    rw [hkeep, hq]
  cases i with
  | add m1 m2 m3 => exact halu m1 m2 m3 (by simp)
  | multiply m1 m2 m3 => exact halu m1 m2 m3 (by simp)
  | input m1 m2 m3 =>
    obtain ⟨-, -, hkeep, -⟩ := inputFrame m1 m2 m3 s u hexec
    rw [hq] at hkeep
    exact hkeep.elim id id
  | output m1 m2 m3 =>
    obtain ⟨v, -, rfl⟩ := h
    cases hst
  | jumpIfTrue m1 m2 m3 => exact hcontrol m1 m2 m3 (by simp)
  | jumpIfFalse m1 m2 m3 => exact hcontrol m1 m2 m3 (by simp)
  | lessThan m1 m2 m3 => exact halu m1 m2 m3 (by simp)
  | equals m1 m2 m3 => exact halu m1 m2 m3 (by simp)
  | setRelativeBase m1 m2 m3 => exact hcontrol m1 m2 m3 (by simp)
  | halt m1 m2 m3 => exact hcontrol m1 m2 m3 (by simp)

/-! ## Pause and resume (R120) -/

/-- The word at the pointer is an Input. -/
def State.AtInput (s : State) : Prop := ∃ m1 m2 m3, decode (s.cell s.ptr) = .ok (.input m1 m2 m3)

/-- The states the driver of R120 calls `run` on: nothing in the channel, or the one value fed for the Input at the
pointer. -/
def State.Fed (s : State) : Prop := s.q = [] ∨ ∃ v, s.q = [v] ∧ s.st ≠ .stopped ∧ s.AtInput

/-- The driver's instance goes from `s` to `t`: so does one that has `rest` pre-loaded behind the channel of `s`, the
outputs of the driver's instance being left behind `rest`; and where the driver's instance waits for input, its channel
is empty and the word at its pointer is an Input. -/
def Mirrored (s t : State) : Prop :=
  (t.st = .pausedWaitingForInput → t.q = [] ∧ t.AtInput) ∧
  ∀ (rest : List Word) (u : State), Returns (t.setQ (rest ++ t.q)) u → Returns (s.setQ (s.q ++ rest)) u

theorem Mirrored.trans {s t u : State} (hst : Mirrored s t) (htu : Mirrored t u) (hq : t.q = []) : Mirrored s u := by
  refine ⟨htu.1, fun rest x hx => hst.2 rest x ?_⟩
  have h := htu.2 rest x hx
  rw [hq, List.nil_append] at h
  rwa [hq, List.append_nil]

theorem State.stAfter_ne_waiting (s : State) {op : Opcode} (h : op ≠ .input) :
    s.stAfter op ≠ .pausedWaitingForInput := by
  intro hw
  cases op with
  | input => exact h rfl
  | _ => cases hw

section
variable {s t : State} {i : Instr} {m1 m2 m3 : Mode} (hf : s.fault = none) (hst : s.st = .running)
include hf hst

/-- The step of an instruction other than Input, completed on an empty channel, is mirrored by the same instruction
behind the pre-loaded values. -/
theorem mirrored_of_completed (hd : decode (s.cell s.ptr) = .ok i) (h : Completed i s t) (hi : i.opcode ≠ .input)
    (hq : s.q = []) : Mirrored s t := by
  have hw : t.st ≠ .pausedWaitingForInput := by
    rw [h.st_eq_stAfter hst]
    exact s.stAfter_ne_waiting hi
  refine ⟨fun hwait => absurd hwait hw, fun rest u hu => ?_⟩
  have hstep : step (s.setQ rest) = .next (t.setQ (rest ++ t.q)) :=
    (step_of_decode_ok (s := s.setQ rest) hf hst hd).trans (exec_of_completed (h.behind hi hq rest))
  rw [hq, List.nil_append]
  exact hu.of_step hstep (h.fault_and_rb.1.trans hf) hw

/-- An Input that pauses is mirrored by no step: entering the run again leads there too. -/
theorem mirrored_of_input_pause (hd : decode (s.cell s.ptr) = .ok (.input m1 m2 m3)) (hq : s.q = []) :
    Mirrored s (s.setSt .pausedWaitingForInput) := by
  refine ⟨fun _ => ⟨hq, m1, m2, m3, hd⟩, fun rest u hu => ?_⟩
  rw [State.setSt_q, hq, List.append_nil] at hu
  rw [hq, List.nil_append]
  exact Returns.of_setSt (x := .pausedWaitingForInput) hu nofun hf (by rw [State.setQ_st, hst]; nofun)

/-- An Input of the one value in the channel is mirrored by the Input of the same value from the front. -/
theorem mirrored_of_input {v : Word} {a : Nat} (hd : decode (s.cell s.ptr) = .ok (.input m1 m2 m3)) (hq : s.q = [v])
    (ha : s.targetAddr 1 m1 = .ok a) : Mirrored s (s.inputDone a v []) := by
  have hst' : (s.inputDone a v []).st = .running := (s.inputDone_st a v []).trans hst
  refine ⟨fun hwait => ?_, fun rest u hu => ?_⟩
  · cases hst'.symm.trans hwait
  · rw [State.inputDone_q, List.append_nil] at hu
    have hexec : exec (.input m1 m2 m3) (s.setQ (v :: rest)) = .next ((s.inputDone a v []).setQ rest) :=
      execInput_of_target (s := s.setQ (v :: rest)) rfl ((s.setQ_targetAddr 1 m1 _).trans ha)
    rw [hq]
    exact hu.of_step ((step_of_decode_ok (s := s.setQ (v :: rest)) hf hst hd).trans hexec) hf
      (by rw [State.setQ_st, hst']; nofun)

end

/-- One step of the driver's instance is mirrored, and leaves the channel empty if it goes on Running. -/
theorem mirrored_step {s t : State} (hs : s.Fed) (h : step s = .next t) (hf : t.fault = none) :
    Mirrored s t ∧ (t.st = .running → t.q = []) := by
  obtain ⟨hfs, hst, -⟩ := step_next h
  obtain ⟨i, hd, hdone⟩ | ⟨f, -, rfl⟩ := step_next_cases h
  case inr => cases hf
  by_cases hi : ∃ m1 m2 m3, i = .input m1 m2 m3
  · obtain ⟨m1, m2, m3, rfl⟩ := hi
    obtain ⟨hq, rfl⟩ | ⟨v, rest, a, hq, ha, rfl⟩ := hdone
    · exact ⟨mirrored_of_input_pause hfs hst hd hq, fun _ => hq⟩
    · obtain rfl : rest = [] := by
        obtain hnil | ⟨w, hone, -⟩ := hs
        · cases hnil.symm.trans hq
        · cases hone.symm.trans hq
          rfl
      exact ⟨mirrored_of_input hfs hst hd hq ha, fun _ => rfl⟩
  · have hop : i.opcode ≠ .input := fun hin => by
      cases i with
      | input m1 m2 m3 => exact hi ⟨m1, m2, m3, rfl⟩
      | _ => cases hin
    have hq : s.q = [] := by
      obtain hq | ⟨-, -, -, m1, m2, m3, hin⟩ := hs
      · exact hq
      · exact absurd ⟨m1, m2, m3, Except.ok.inj (hd.symm.trans hin)⟩ hi
    exact ⟨mirrored_of_completed hfs hst hd hdone hop hq, fun hrun => hdone.q_eq_nil hrun hq⟩

theorem mirrored_runLoop {n : Nat} {s t : State} (hs : s.Fed) (he : s.enabled = true) (h : runLoop n s = some t)
    (hf : t.fault = none) : Mirrored s t := by
  induction n generalizing s with
  | zero =>
    rw [runLoop_zero_of_enabled he] at h
    cases h
  | succ n ih =>
    obtain ⟨x, hx⟩ := enabled_step he
    rw [runLoop_of_enabled he hx] at h
    by_cases hxe : x.enabled = true
    · obtain ⟨hrun, hxf⟩ := x.enabled_iff.mp hxe
      obtain ⟨hm, hq⟩ := mirrored_step hs hx hxf
      exact hm.trans (ih (.inl (hq hrun)) hxe h) (hq hrun)
    · rw [runLoop_of_not_enabled hxe] at h
      cases h
      exact (mirrored_step hs hx hf).1

theorem State.Fed.setSt_running {s : State} (h : s.Fed) : (s.setSt .running).Fed := by
  obtain hq | ⟨v, hq, -, hin⟩ := h
  · exact .inl hq
  · exact .inr ⟨v, hq, nofun, hin⟩

theorem mirrored_run {n : Nat} {s t : State} (hs : s.Fed) (h : run n s = some t) (hf : t.fault = none) :
    Mirrored s t := by
  obtain ⟨hdone, rfl⟩ | ⟨hfs, hst, hloop⟩ := run_cases h
  · have hstop := hdone.resolve_left fun hne => hne hf
    have hq : t.q = [] := hs.resolve_right fun ⟨_, _, hne, _⟩ => hne hstop
    refine ⟨fun hw => ?_, fun rest u hu => ?_⟩
    · cases hstop.symm.trans hw
    · rwa [hq, List.nil_append, ← List.append_nil rest, ← hq]
  · obtain ⟨hw, hret⟩ := mirrored_runLoop hs.setSt_running ((s.setSt .running).enabled_iff.mpr ⟨rfl, hfs⟩) hloop hf
    exact ⟨hw, fun rest u hu => (hret rest u hu).of_setSt (s := s.setQ (s.q ++ rest)) nofun hfs hst⟩

/-- What the driver brings to a normal halt, run_until_halted does on the inputs pre-loaded, whatever outputs stand
behind them, but for the channel. -/
theorem returns_of_drive {n k : Nat} {inputs outputs : List Word} {s t : State} (hs : s.Fed)
    (h : drive n k inputs s = some t) (ht : t.HaltedNormally) :
    ∃ q, Returns (s.setQ (s.q ++ (inputs ++ outputs))) (t.setQ q) := by
  induction k generalizing inputs outputs s with
  | zero => cases h
  | succ k ih =>
    rw [drive] at h
    cases hrun : run n s with
    | none =>
      rw [hrun] at h
      cases h
    | some x =>
      rw [hrun] at h
      dsimp only at h
      by_cases hend : x.fault ≠ none ∨ x.st = .stopped
      · rw [if_pos hend] at h
        cases h
        obtain ⟨hstop, hf⟩ := ht
        exact ⟨_, (mirrored_run hs hrun hf).2 _ _ (returns_of_stopped hstop)⟩
      · rw [if_neg hend] at h
        have hf : x.fault = none := not_not.mp fun hne => hend (.inl hne)
        obtain ⟨hwait, hret⟩ := mirrored_run hs hrun hf
        by_cases hp : x.st = .paused
        · rw [if_pos hp] at h
          obtain ⟨q, hq⟩ := ih (outputs := outputs ++ x.q) (s := x.setQ []) (.inl rfl) h
          refine ⟨q, hret _ _ ?_⟩
          rwa [List.append_assoc]
        · rw [if_neg hp] at h
          have hw : x.st = .pausedWaitingForInput :=
            (run_st hrun hf).elim (fun h => absurd h hp) fun h => h.resolve_right fun h => hend (.inr h)
          obtain ⟨hxq, hin⟩ := hwait hw
          cases inputs with
          | nil =>
            cases h
            cases hw.symm.trans ht.1
          | cons v rest =>
            have hfed : (hostEnqueue v x).q = [v] := by rw [hostEnqueue, State.pushBack_q, hxq]; rfl
            obtain ⟨q, hq⟩ := ih (outputs := outputs) (s := hostEnqueue v x)
              (.inr ⟨v, hfed, by rw [hostEnqueue, State.pushBack_st, hw]; nofun, hin⟩) h
            refine ⟨q, hret _ _ ?_⟩
            rw [hfed] at hq
            rw [hxq, List.append_nil]
            exact hq

/-- Settles O56: the driver starts with nothing in the channel, and what it brings to a halt run_until_halted returns,
the outputs being left in the channel. -/
theorem pauseResumeFidelity : Obligations.PauseResumeFidelity := by
  intro n k inputs s t hq h ht
  obtain ⟨q, m, hm⟩ := returns_of_drive (outputs := []) (.inl hq) h ht
  rw [hq, List.nil_append, List.append_nil] at hm
  exact ⟨m, t.setQ q, hm, ht, rfl, rfl, rfl, rfl⟩

end Sys2Proof.Machine
end

section
/-!
PROOFS. Image texts (spec/70_reset_and_hazards.md R160, R161): load accepts exactly the grammar, refuses everything
else with LoadError, and reads printed values back.
-/
namespace Sys2Proof.Machine

/-! ## Splitting at commas -/

/-- Splitting undoes joining by commas. -/
theorem splitCommas_intercalate {pieces : List (List Char)} (hne : pieces ≠ []) (hp : ∀ p ∈ pieces, ',' ∉ p) :
    splitCommas ([','].intercalate pieces) = pieces := by
  have hcomma {p : List Char} (h : ',' ∉ p) : ∀ c ∈ p, c ≠ ',' := fun c hc hcc => h (hcc ▸ hc)
  induction pieces with
  | nil => exact absurd rfl hne
  | cons p ps ih =>
    have hfirst := hcomma (hp p List.mem_cons_self)
    cases ps with
    | nil =>
      rw [List.intercalate_singleton]
      exact splitCommas_of_no_comma hfirst
    | cons p' ps =>
      rw [List.intercalate_cons_cons, List.append_assoc, List.singleton_append, splitCommas_append_comma _ hfirst,
        ih nofun fun x hx => hp x (List.mem_cons_of_mem p hx)]

/-- A comma at the end adds an empty piece. -/
theorem splitCommas_snoc_comma (text : List Char) : splitCommas (text ++ [',']) = splitCommas text ++ [[]] := by
  induction text with
  | nil => rfl
  | cons c cs ih =>
    obtain ⟨p, ps, hps⟩ := List.exists_cons_of_ne_nil (splitCommas_ne_nil cs)
    rw [List.cons_append, splitCommas, splitCommas, ih, hps]
    split <;> rfl

/-! ## What the pieces are worth -/

/-- The pieces parse into `vs` exactly if each is a token that writes its value. -/
theorem piecesValue_eq_ok {off : Nat} {ps : List (List Char)} {vs : List Word} :
    piecesValue off ps = .ok vs ↔ List.Forall₂ (fun p v => IsToken p v.toInt) ps vs := by
  induction ps generalizing off vs with
  | nil =>
    rw [piecesValue, List.forall₂_nil_left_iff]
    exact ⟨fun h => (Except.ok.inj h).symm, fun h => congrArg _ h.symm⟩
  | cons p ps ih =>
    rw [List.forall₂_cons_left_iff, piecesValue]
    constructor
    · intro h
      split at h
      · cases h
      · rename_i v hv
        split at h
        · cases h
        · rename_i ws hws
          cases h
          exact ⟨v, ws, tokenValue_eq_some.mp hv, ih.mp hws, rfl⟩
    · rintro ⟨v, ws, hv, hws, rfl⟩
      rw [tokenValue_eq_some.mpr hv]
      dsimp only
      rw [ih.mpr hws]

/-- Settles O60: the pieces between the commas of the text are the pieces given, and they parse exactly if each is a
token. -/
theorem loadFollowsTheGrammar : Obligations.LoadFollowsTheGrammar := by
  intro pieces s hne hp
  simp only [load_eq_ok, parseImage, splitCommas_intercalate hne hp, piecesValue_eq_ok]
  exact exists_congr fun vs => and_congr_right' eq_comm

/-! ## Refusals -/

/-- A text with a piece that is no token of a value in `i64` is refused. -/
theorem load_of_bad_piece {text p : List Char} (hp : p ∈ splitCommas text) (hbad : ∀ v : Word, ¬ IsToken p v.toInt) :
    ∃ off, load text = .error (.loadError off) := by
  unfold load parseImage
  cases hparse : piecesValue 0 (splitCommas text) with
  | ok vs =>
    obtain ⟨v, hv⟩ := tokenValue_of_piecesValue hparse p hp
    exact absurd (tokenValue_eq_some.mp hv) (hbad v)
  | error e =>
    obtain ⟨off, rfl⟩ := loadError_of_piecesValue hparse
    exact ⟨off, rfl⟩

/-- Every character of a token stands in the grammar's alphabet. -/
theorem IsToken.mem_alphabet {p : List Char} {v : Int} (h : IsToken p v) {c : Char} (hc : c ∈ p) :
    c ∈ ['0', '1', '2', '3', '4', '5', '6', '7', '8', '9', '+', '-', ',', ' ', '\t', '\r', '\n'] := by
  obtain ⟨before, sign, digits, after, rfl, hspace, -, hdigits, hsign⟩ := h
  have hin : c ∈ before ++ after ∨ c ∈ sign ∨ c ∈ digits := by
    simp only [List.mem_append] at hc ⊢
    tauto
  obtain hc | hc | hc := hin
  · have := hspace c hc
    simp only [List.mem_cons] at this ⊢
    tauto
  · obtain ⟨hs, -⟩ | ⟨rfl, -⟩ := hsign
    · simp only [List.mem_cons, List.not_mem_nil, or_false] at hs
      obtain rfl | rfl := hs
      · cases hc
      · simp_all
    · simp_all
  · have := hdigits c hc
    simp only [List.mem_cons] at this ⊢
    tauto

theorem not_isToken_nil (v : Int) : ¬ IsToken [] v := by
  rw [← signedValue_trimSpace_eq_some]
  nofun

/-- Settles O59: each of these texts has a piece that is no token of a value in `i64`: the given one, the one with the
character, or the empty one after the last comma. -/
theorem loadRefusesMalformedText : Obligations.LoadRefusesMalformedText := by
  refine ⟨fun pieces hne hp ⟨p, hmem, hbad⟩ => ?piece, fun text c hc hout => ?character, rfl, fun text => ?comma⟩
  case piece =>
    rw [← splitCommas_intercalate hne hp] at hmem
    refine load_of_bad_piece hmem fun v hv => ?_
    exact not_inI64_iff.mpr (hbad _ hv) (inI64_toInt v)
  case character =>
    obtain rfl | ⟨p, hmem, hcp⟩ := mem_splitCommas hc
    · exact absurd (by decide) hout
    · exact load_of_bad_piece hmem fun v hv => hout (hv.mem_alphabet hcp)
  case comma =>
    refine load_of_bad_piece (p := []) ?_ fun v => not_isToken_nil _
    rw [splitCommas_snoc_comma]
    exact List.mem_append_right _ List.mem_cons_self

/-! ## Printed values -/

theorem mem_digitChars_of_isDigit {c : Char} (h : c.isDigit = true) : c ∈ digitChars := by
  refine mem_of_digitValue (d := c.toNat - 48) (if_pos ?_)
  simpa [Char.isDigit, UInt32.le_iff_toNat_le] using h

theorem mem_digitChars_of_mem_toDigits {n : Nat} {c : Char} (h : c ∈ Nat.toDigits 10 n) : c ∈ digitChars :=
  mem_digitChars_of_isDigit (Nat.isDigit_of_mem_toDigits (by decide) (by decide) h)

/-- Printing a natural number and reading it back is the identity. -/
theorem decimalValue_toDigits (n : Nat) : decimalValue (Nat.toDigits 10 n) = n := by
  have hfold : decimalValue (Nat.toDigits 10 n) = Nat.ofDigitChars 10 (Nat.toDigits 10 n) 0 := by
    simp only [decimalValue, Nat.ofDigitChars, Nat.mul_comm]
    rfl
  rw [hfold, Nat.ofDigitChars_ten_toDigits]

theorem isToken_decimalText (v : Word) : IsToken (decimalText v) v.toInt := by
  have hdigits : ∀ c ∈ Nat.toDigits 10 v.toInt.natAbs, c ∈ digitChars := fun _ => mem_digitChars_of_mem_toDigits
  have hvalue := decimalValue_toDigits v.toInt.natAbs
  unfold decimalText
  split
  · exact ⟨[], ['-'], _, [], by simp, nofun, Nat.toDigits_ne_nil, hdigits, .inr ⟨rfl, by omega⟩⟩
  · exact ⟨[], [], _, [], by simp, nofun, Nat.toDigits_ne_nil, hdigits, .inl ⟨by simp, by omega⟩⟩

theorem comma_notMem_decimalText (v : Word) : ',' ∉ decimalText v := by
  have hdigits : ',' ∉ Nat.toDigits 10 v.toInt.natAbs := fun h =>
    absurd (mem_digitChars_of_mem_toDigits h) (by decide)
  unfold decimalText
  split
  · exact List.not_mem_cons_of_ne_of_not_mem (by decide) hdigits
  · exact hdigits

theorem imageText_eq_intercalate (vs : List Word) : imageText vs = [','].intercalate (vs.map decimalText) := by
  induction vs with
  | nil => rfl
  | cons v vs ih =>
    cases vs with
    | nil => exact List.intercalate_singleton.symm
    | cons w vs =>
      rw [imageText, ih]
      simp only [List.map_cons, List.intercalate_cons_cons, List.append_assoc, List.singleton_append]

/-- Settles O57: the pieces are the printed values, each a token that writes its value, so the text follows the
grammar. -/
theorem imageTextLoads : Obligations.ImageTextLoads := by
  intro vs hne
  rw [imageText_eq_intercalate]
  refine (loadFollowsTheGrammar _ _ (by simpa using hne) ?_).mpr ⟨vs, ?_, rfl⟩
  · intro p hp
    obtain ⟨v, -, rfl⟩ := List.mem_map.mp hp
    exact comma_notMem_decimalText v
  · rw [List.forall₂_map_left_iff]
    exact List.forall₂_same.mpr fun v _ => isToken_decimalText v

end Sys2Proof.Machine
end
